-- ==== Sys2Proof/Config.lean ====
section
/-! DEFINITION. The implementation parameters of the core (spec/00_scope.md R5) as named constants, with the
one value the spec supports for each. The core has no free value: spec/93_implementation_defined.md says that
no behaviour is open, so nothing here is opaque. -/

namespace Sys2Proof

/-- `XLEN` (R5): width in bits of every register cell and every memory cell. -/
@[simp] abbrev Config.xlen : Nat := 32

/-- `NREGS` (R5): number of register cells. -/
@[simp] abbrev Config.nregs : Nat := 128

/-- `MEMSIZE` (R5): number of memory cells. -/
@[simp] abbrev Config.memsize : Nat := 4096

/-- `OPCODE_BITS` (R5): width of the opcode field A. -/
@[simp] abbrev Config.opcodeBits : Nat := 4

/-- `REGIDX_BITS` (R5): width of every register-index field. -/
@[simp] abbrev Config.regIdxBits : Nat := 7

/-- `LOAD_CONST.B` (R5): width of the immediate. -/
@[simp] abbrev Config.immBits : Nat := 16

/-- `READ.B` (R5): width of READ's direct address. -/
@[simp] abbrev Config.readAddrBits : Nat := 17

/-- `LT.B` (R5): width of LT's direct address. -/
@[simp] abbrev Config.ltAddrBits : Nat := 7

/-- `LT.D` (R5): width of LT's displacement. -/
@[simp] abbrev Config.dispBits : Nat := 8

/-- The opcode value of LOAD_CONST (spec/30_encoding.md R55, R64). -/
@[simp] abbrev Config.opLoadConst : Nat := 1

/-- The opcode value of READ (R55, R64). -/
@[simp] abbrev Config.opRead : Nat := 4

/-- The opcode value of LT (R55, R64). -/
@[simp] abbrev Config.opLt : Nat := 9

/-- The opcode value of WRITE (R55, R64). -/
@[simp] abbrev Config.opWrite : Nat := 15

/-- The long instruction length in bytes, `ILEN` of R5. -/
@[simp] abbrev Config.longLen : Nat := 4

/-- The short instruction length in bytes, `ILEN` of R5. -/
@[simp] abbrev Config.shortLen : Nat := 3

end Sys2Proof
end

