-- ==== Sys2Proof/Word.lean ====
section
/-! DEFINITION. The two word types of the core: the 32-bit cell of the register bank and of the data memory,
and the byte of the instruction stream (spec/00_scope.md R6, R7). -/

namespace Sys2Proof

/-- A register cell or a memory cell: an unsigned 32-bit value (R7). -/
abbrev Word := BitVec Config.xlen

/-- A byte of the instruction stream (R6). -/
abbrev Byte := BitVec 8

end Sys2Proof
end

