-- ==== Sys2Proof/Syntax.lean ====
section
/-! DEFINITION. The instruction records of the core, one constructor per row of spec/opcode_table.json, and the
input record of the reference encoder. A field that is an index or an address is a natural number, so that the
hand-built record of spec/10_state.md R12 can be written down (log entry 6); a field that is data for the ALU
or for a register is a bit vector of its declared width. -/

namespace Sys2Proof

/-- A Decoded Instruction (spec/30_encoding.md R56): the opcode A is implied by the constructor. -/
inductive Instr where
  /-- LOAD_CONST: `b` the 16-bit immediate, `c` the destination register (spec/41_load_const.md R100). -/
  | loadConst (b : BitVec Config.immBits) (c : Nat)
  /-- READ: `b` the direct cell address, `c` the destination register (spec/42_read_write.md R110). -/
  | read (b c : Nat)
  /-- WRITE: `b` the register with the data, `c` the register with the address (R115). -/
  | write (b c : Nat)
  /-- LT: `b` the direct address of the second operand, `c` the base register, `d` the displacement
  (spec/43_lt.md R130). -/
  | lt (b c : Nat) (d : BitVec Config.dispBits)
  deriving DecidableEq, Repr

/-- An input record of the reference encoder (spec/30_encoding.md R70, R76): the mnemonic as a list of
characters, the record's own A if it carries one, and the operand fields as natural numbers of any size. -/
structure SourceRecord where
  /-- The mnemonic string, any letter case. -/
  name : List Char
  /-- Field A, if the record carries one (spec/92_eei_decisions.md D13). -/
  a : Option Nat
  /-- Field B. -/
  b : Nat
  /-- Field C. -/
  c : Nat
  /-- Field D, read by LT only. -/
  d : Nat
  deriving DecidableEq, Repr

/-- How the reference encoder fails (R73; spec/92_eei_decisions.md D13). -/
inductive EncodeError where
  /-- The mnemonic is none of the accepted strings (R73). -/
  | unknownOpcode (name : List Char)
  /-- The record carries an A that is not its mnemonic's opcode (D13). -/
  | opcodeMismatch (a : Nat)
  deriving DecidableEq, Repr

end Sys2Proof
end

