-- ==== Sys2Proof/WellFormed.lean ====
section
/-! DEFINITION. The well-formed instructions: those whose index and address fields fit the widths the encoding
declares (spec/30_encoding.md R55, R56). Exactly these come out of the decoder. -/

namespace Sys2Proof

/-- Every index or address field is below two to its declared width. The immediate of LOAD_CONST and the
displacement of LT fit by their types. -/
def Instr.wf : Instr → Bool
  | .loadConst _ c => decide (c < 2 ^ Config.regIdxBits)
  | .read b c => decide (b < 2 ^ Config.readAddrBits) && decide (c < 2 ^ Config.regIdxBits)
  | .write b c => decide (b < 2 ^ Config.regIdxBits) && decide (c < 2 ^ Config.regIdxBits)
  | .lt b c _ => decide (b < 2 ^ Config.ltAddrBits) && decide (c < 2 ^ Config.regIdxBits)

/-- The instruction is well-formed. -/
abbrev WellFormed (i : Instr) : Prop := i.wf = true

end Sys2Proof
end

