-- ==== Sys2Proof/Decode.lean ====
section
/-! DEFINITION. The decoder of the core, total on any bytes (spec/30_encoding.md R50 to R68), and after it the
reference encoder (R70 to R77). -/

namespace Sys2Proof

/-! ## Bits and bytes (spec/00_scope.md R6) -/

/-- `v[hi:lo] = (v >> lo) mod 2^(hi-lo+1)` (R6). -/
def bits (v hi lo : Nat) : Nat := (v >>> lo) % 2 ^ (hi - lo + 1)

/-- `LE(b_0, ..., b_{n-1})`, the little-endian unsigned integer of the bytes (R6). PRESUMED: the spec marks the
formula as the usual meaning of the term (spec/93_implementation_defined.md G1; log entry 7). -/
def le : List Byte → Nat
  | [] => 0
  | b :: bs => b.toNat + 256 * le bs

/-- The `n` low bytes of `w`, byte 0 first: `b_k = w[8k+7 : 8k]` (R70). -/
def leBytes : Nat → Nat → List Byte
  | 0, _ => []
  | n + 1, w => BitVec.ofNat 8 (bits w 7 0) :: leBytes n (w >>> 8)

/-! ## The decoder -/

/-- The opcode nibble of an instruction's first byte, `byte 0 [3:0]` (spec/30_encoding.md R51). -/
def opcodeOf (b0 : Byte) : Nat := bits b0.toNat 3 0

/-- The length rule (R52), total on every nibble. -/
def ilen (a : Nat) : Nat :=
  if a = Config.opLoadConst ∨ a = Config.opRead ∨ a = Config.opLt then Config.longLen
  else Config.shortLen

/-- `decode_word` (R68): the instruction of the word `w`, or `none` for a reserved opcode (R65). -/
def decodeWord (w : Nat) : Option Instr :=
  if bits w 3 0 = Config.opLoadConst then
    some (.loadConst (BitVec.ofNat Config.immBits (bits w 19 4)) (bits w 26 20))
  else if bits w 3 0 = Config.opRead then
    some (.read (bits w 20 4) (bits w 27 21))
  else if bits w 3 0 = Config.opWrite then
    some (.write (bits w 10 4) (bits w 17 11))
  else if bits w 3 0 = Config.opLt then
    some (.lt (bits w 10 4) (bits w 17 11) (BitVec.ofNat Config.dispBits (bits w 25 18)))
  else none

/-- What stands at the front of the bytes from the cursor to the end of the stream
(spec/40_sequencer.md R82). -/
inductive Front where
  /-- No byte is left: the cursor has reached the end of the stream. -/
  | endOfStream
  /-- The nibble asks for `need` bytes and only `have_` remain (spec/60_exceptions.md R142). -/
  | truncated (need have_ : Nat)
  /-- A whole word whose opcode nibble is reserved (spec/60_exceptions.md R141). -/
  | unknownOpcode (opcode : Nat)
  /-- A whole word of `len` bytes that decodes to `i`. -/
  | word (i : Instr) (len : Nat)
  deriving DecidableEq, Repr

/-- Measure and decode the word at the front of the remaining bytes, in the order of R82: nibble, length,
truncation test, word, opcode test (spec/92_eei_decisions.md D2 puts truncation first; log entry 8). -/
def decodeFront : List Byte → Front
  | [] => .endOfStream
  | b0 :: rest =>
    if (b0 :: rest).length < ilen (opcodeOf b0) then
      .truncated (ilen (opcodeOf b0)) (b0 :: rest).length
    else
      match decodeWord (le ((b0 :: rest).take (ilen (opcodeOf b0)))) with
      | some i => .word i (ilen (opcodeOf b0))
      | none => .unknownOpcode (opcodeOf b0)

/-- Decode a whole stream with at most `fuel` words; `none` if a word is truncated or reserved. -/
def decodeStreamWith : Nat → List Byte → Option (List Instr)
  | 0, bs => if bs = [] then some [] else none
  | fuel + 1, bs =>
    match decodeFront bs with
    | .endOfStream => some []
    | .truncated _ _ => none
    | .unknownOpcode _ => none
    | .word i n => (decodeStreamWith fuel (bs.drop n)).map (fun is => i :: is)

/-- The list a stream decodes to, if its decode phase raises nothing (spec/40_sequencer.md R81, R82). Each word
takes at least three bytes, so as many words as bytes is enough fuel. -/
def decodeStream (bs : List Byte) : Option (List Instr) := decodeStreamWith bs.length bs

/-! ## Words of the opcode table -/

/-- An instruction given as the table numbers its bits: `nbits` bits of `w`, bit 0 in the low bit of byte 0, and
every bit above them zero up to the longest instruction. -/
def tableBytes (nbits w : Nat) : List Byte := leBytes Config.longLen (w % 2 ^ nbits)

/-- The bytes of the first instruction alone: what its length rule takes of them (R52). -/
def firstWordBytes : List Byte → List Byte
  | [] => []
  | b0 :: rest => (b0 :: rest).take (ilen (opcodeOf b0))

/-- The instruction this decoder reads from a word numbered as spec/opcode_table.json numbers it. -/
def decodeTableWord (nbits w : Nat) : Option Instr :=
  match decodeFront (tableBytes nbits w) with
  | .word i _ => some i
  | _ => none

/-! ## The reference encoder (spec/30_encoding.md R70 to R77) -/

/-- The opcode of an instruction (R55). -/
def Instr.opcode : Instr → Nat
  | .loadConst _ _ => Config.opLoadConst
  | .read _ _ => Config.opRead
  | .write _ _ => Config.opWrite
  | .lt _ _ _ => Config.opLt

/-- The word of an instruction (R70): opcode lowest, then B, C and D, each masked to its width (R71), pad bits
zero (R72). -/
def encodeWord : Instr → Nat
  | .loadConst b c => Config.opLoadConst + b.toNat * 2 ^ 4 + (c % 2 ^ Config.regIdxBits) * 2 ^ 20
  | .read b c =>
    Config.opRead + (b % 2 ^ Config.readAddrBits) * 2 ^ 4 + (c % 2 ^ Config.regIdxBits) * 2 ^ 21
  | .write b c =>
    Config.opWrite + (b % 2 ^ Config.regIdxBits) * 2 ^ 4 + (c % 2 ^ Config.regIdxBits) * 2 ^ 11
  | .lt b c d =>
    Config.opLt + (b % 2 ^ Config.ltAddrBits) * 2 ^ 4 + (c % 2 ^ Config.regIdxBits) * 2 ^ 11
      + d.toNat * 2 ^ 18

/-- The number of bits of an instruction's word that carry a field (R55, fourth column). -/
def Instr.fieldBits : Instr → Nat
  | .loadConst _ _ => 27
  | .read _ _ => 28
  | .write _ _ => 18
  | .lt _ _ _ => 26

/-- The Encoded Word of an instruction: its 3 or 4 bytes, byte 0 first (R70, R72). -/
def encode (i : Instr) : List Byte := leBytes (ilen i.opcode) (encodeWord i)

/-- The stream of a program is the concatenation of the words of its records in order (R70). -/
def encodeStream (is : List Instr) : List Byte := is.flatMap encode

/-- An instruction with every field reduced to its declared width, what `decode (encode R)` gives for a record
whose fields do not fit (R75). -/
def Instr.narrow : Instr → Instr
  | .loadConst b c => .loadConst b (c % 2 ^ Config.regIdxBits)
  | .read b c => .read (b % 2 ^ Config.readAddrBits) (c % 2 ^ Config.regIdxBits)
  | .write b c => .write (b % 2 ^ Config.regIdxBits) (c % 2 ^ Config.regIdxBits)
  | .lt b c d => .lt (b % 2 ^ Config.ltAddrBits) (c % 2 ^ Config.regIdxBits) d

/-- A letter in lower case: the mnemonic strings are case-insensitive (R76). DESIGN CHOICE: only the letters A
to Z have a lower case (log entry 14). -/
def lowerChar (ch : Char) : Char :=
  if 65 ≤ ch.toNat ∧ ch.toNat ≤ 90 then Char.ofNat (ch.toNat + 32) else ch

/-- The instruction a record names, with LOAD_CONST's immediate and LT's displacement cut to their widths
(R71, R76); `none` for a name outside the seven accepted strings. -/
def SourceRecord.instr (r : SourceRecord) : Option Instr :=
  let name := r.name.map lowerChar
  if name = ['l', 'o', 'a', 'd', '_', 'c', 'o', 'n', 's', 't'] ∨ name = ['l', 'd', 'c']
      ∨ name = ['c', 'o', 'n', 's', 't'] then
    some (.loadConst (BitVec.ofNat Config.immBits r.b) r.c)
  else if name = ['r', 'e', 'a', 'd'] then some (.read r.b r.c)
  else if name = ['w', 'r', 'i', 't', 'e'] then some (.write r.b r.c)
  else if name = ['l', 't'] ∨ name = ['<'] then
    some (.lt r.b r.c (BitVec.ofNat Config.dispBits r.d))
  else none

/-- Encode one record (R70, R71, R73). The opcode written is the one the mnemonic fixes; a record whose own A
differs is refused (spec/92_eei_decisions.md D13; log entry 14). Nothing else is checked (R74). -/
def encodeRecord (r : SourceRecord) : Except EncodeError (List Byte) :=
  match r.instr with
  | none => .error (.unknownOpcode r.name)
  | some i =>
    match r.a with
    | none => .ok (encode i)
    | some a => if a = i.opcode then .ok (encode i) else .error (.opcodeMismatch a)

/-- Encode a program: the words of its records in order, or the first failure, which aborts the encoding of the
whole program (R70, R73). -/
def assemble : List SourceRecord → Except EncodeError (List Byte)
  | [] => .ok []
  | r :: rs =>
    match encodeRecord r with
    | .error e => .error e
    | .ok bs =>
      match assemble rs with
      | .error e => .error e
      | .ok rest => .ok (bs ++ rest)

end Sys2Proof
end

