-- ==== Sys2Proof/Machine/State.lean ====
section
/-! DEFINITION. The state of the core (spec/10_state.md R10 to R20), the model's own stop reasons, and the state
after reset (R25; spec/70_reset_and_hazards.md R170). -/

namespace Sys2Proof.Machine

/-- Where the run stands (R19). -/
inductive Phase where
  /-- The decoder is walking the stream; no instruction has executed. -/
  | decode
  /-- The whole stream was decoded and the executor is walking the list. -/
  | execute
  /-- Every instruction has completed: the only normal end. -/
  | halted
  /-- A condition was raised: the run is over. -/
  | faulted
  deriving DecidableEq, Repr

/-- Which operand an `OutOfBounds` names (R20). -/
inductive AccessKind where
  | register
  | memory
  deriving DecidableEq, Repr

/-- The record a `raise` leaves (R20). -/
inductive FaultRecord where
  /-- A reserved opcode nibble in the word at byte offset `at_` (spec/60_exceptions.md R141). -/
  | unknownOpcode (at_ opcode : Nat)
  /-- The word at byte offset `at_` needs `need` bytes and `have_` remain (R142). -/
  | truncatedStream (at_ need have_ : Nat)
  /-- Instruction `at_` of the list used the index `index` outside the bank or the memory (R143). -/
  | outOfBounds (kind : AccessKind) (index at_ : Nat)
  deriving DecidableEq, Repr

/-- The data memory (R14), in the one canonical form that `Memory.wf` states: cell addresses strictly rising,
each below 4096, and no cell equal to what an unlisted address reads as. The unit is the 32-bit cell, the
smallest the spec has (spec/20_memory.md R31, R36; log entry 1). -/
abbrev Memory := List (Nat × Word)

/-- The whole state of the core: the eight items of R10. -/
structure State where
  /-- The register bank `x[0..127]` (R11). -/
  regs : Vector Word Config.nregs
  /-- The data memory `M[0..4095]` (R14). -/
  mem : Memory
  /-- The instruction stream `IS`; its length is `N` (R15). -/
  stream : List Byte
  /-- The decode cursor `cur`, a byte offset (R16). -/
  cur : Nat
  /-- The decoded-instruction list `IQ` (R17). -/
  iq : List Instr
  /-- The program counter `pc`, an index in `IQ` (R18). -/
  pc : Nat
  /-- The run status (R19). -/
  phase : Phase
  /-- The fault report (R20). -/
  fault : Option FaultRecord
  deriving DecidableEq, Repr

/-- Why a step of the model has no next state. None of these is a condition of the core: the three conditions
of the core are next states that hold a `FaultRecord`. -/
inductive Fault where
  /-- The run has ended normally, so no step is enabled (spec/10_state.md R19). Raised by `step` in phase
  Halted; safe, since the core stops there too (log entry 4). -/
  | runHalted
  /-- The run has ended by a failure condition, so no step is enabled (R19; spec/60_exceptions.md R152). Raised
  by `step` in phase Faulted; safe (log entry 4). -/
  | runFaulted
  /-- The cursor is past the end of the stream, outside its type (R10, R16). Raised by the decode step; safe, and
  never reached from a state whose cursor is in range (log entry 5). -/
  | cursorPastStream
  /-- The program counter is past the end of the list, outside its type (R10, R18). Raised by the execute step;
  safe, and never reached from a state whose program counter is in range (log entry 5). -/
  | pcPastList
  deriving DecidableEq, Repr

/-- Why the model gives an instruction no meaning. -/
inductive Refusal where
  /-- An instruction of the table without a meaning in the model, by its mnemonic. Raised by no arm of `exec`
  now; safe. -/
  | notModelled (mnemonic : String)
  deriving DecidableEq, Repr

/-- The state at the start of a run on the stream the host supplied (R25; spec/70_reset_and_hazards.md R170):
every register and memory cell 0, both counters 0, the list empty, phase Decode, no fault. -/
def State.start (bytes : List Byte) : State where
  regs := Vector.replicate Config.nregs 0
  mem := []
  stream := bytes
  cur := 0
  iq := []
  pc := 0
  phase := .decode
  fault := none

/-- The machine right after reset with nothing placed. DESIGN CHOICE: the spec says that the stream is whatever
the host supplied, and here the host has supplied none, which is the legal stream of zero instructions (R15;
log entry 2). -/
def State.reset : State := State.start []

end Sys2Proof.Machine
end

