-- ==== Sys2Proof/Machine/Ops.lean ====
section
/-! DEFINITION. The named operations over the registers, the memory and the run status, and the abort, which is
the core's only exception entry (spec/60_exceptions.md R150). There is no return from it (R152), so no operation
for one. -/

namespace Sys2Proof.Machine

/-- The one result type of a step. -/
abbrev Result := Host.Outcome State Fault Refusal

/-- A computation inside one instruction: it ends with a value, or raises the condition it carries. -/
abbrev Raising (α : Type) := Except FaultRecord α

/-! ## The register bank -/

/-- The raw cell `x[i]`; 0 past the bank, where no operation of the core looks. -/
def State.reg (s : State) (i : Nat) : Word := s.regs.toList.getD i 0

/-- The bank with the cell `i` replaced; the bank itself past its end. -/
def replaceCell (xs : Vector Word Config.nregs) (i : Nat) (v : Word) : Vector Word Config.nregs :=
  ⟨⟨xs.toList.set i v⟩, by simp⟩

/-- Replace the raw cell `x[i]`; nothing happens past the bank. -/
def State.setReg (s : State) (i : Nat) (v : Word) : State :=
  { s with regs := replaceCell s.regs i v }

/-- Read `x[i]` with the index check of spec/10_state.md R12. -/
def readReg (s : State) (i : Nat) : Raising Word :=
  if i < Config.nregs then .ok (s.reg i) else .error (.outOfBounds .register i s.pc)

/-- `x[i] <- v` with the index check of R12. -/
def writeReg (s : State) (i : Nat) (v : Word) : Raising State :=
  if i < Config.nregs then .ok (s.setReg i v) else .error (.outOfBounds .register i s.pc)

/-! ## The data memory -/

/-- What a cell that nothing has written reads as (R14 zero-initialized, R27). -/
def Memory.unlisted : Word := 0

/-- The raw cell `M[a]`. -/
def Memory.cell : Memory → Nat → Word
  | [], _ => Memory.unlisted
  | (b, w) :: m, a => if a = b then w else Memory.cell m a

/-- Put a listed cell in its place by address. -/
def Memory.place : Memory → Nat → Word → Memory
  | [], a, v => [(a, v)]
  | (b, w) :: m, a, v => if a < b then (a, v) :: (b, w) :: m else (b, w) :: Memory.place m a v

/-- Drop whatever is listed for the address. -/
def Memory.drop (m : Memory) (a : Nat) : Memory := m.filter (fun p => p.1 != a)

/-- `M[a] <- v` with no check: all 32 bits replaced, no other cell changed (spec/20_memory.md R34). Writing what
an unlisted cell reads as removes the entry. -/
def Memory.set (m : Memory) (a : Nat) (v : Word) : Memory :=
  if v = Memory.unlisted then Memory.drop m a else Memory.place (Memory.drop m a) a v

/-- The canonical form from address `lo` on. -/
def Memory.wfFrom : Nat → Memory → Bool
  | _, [] => true
  | lo, (a, v) :: m =>
    decide (lo ≤ a) && decide (a < Config.memsize) && (v != Memory.unlisted)
      && Memory.wfFrom (a + 1) m

/-- The memory is in canonical form: addresses strictly rising and inside the memory, no cell equal to what an
unlisted address reads as. -/
def Memory.wf (m : Memory) : Bool := Memory.wfFrom 0 m

/-- Replace the raw cell `M[a]`. -/
def State.setCell (s : State) (a : Nat) (v : Word) : State :=
  { s with mem := Memory.set s.mem a v }

/-- `MemRead(addr, 1)` (spec/20_memory.md R33): the bounds check of R32 comes before the access. -/
def memRead (s : State) (addr : Nat) : Raising Word :=
  if addr < Config.memsize then .ok (Memory.cell s.mem addr)
  else .error (.outOfBounds .memory addr s.pc)

/-- `MemWrite(addr, 1, v)` (R34). -/
def memWrite (s : State) (addr : Nat) (v : Word) : Raising State :=
  if addr < Config.memsize then .ok (s.setCell addr v)
  else .error (.outOfBounds .memory addr s.pc)

/-! ## The run status -/

/-- `raise C(info)` (spec/60_exceptions.md R150): the report is written, the phase becomes Faulted, nothing else
changes. -/
def State.raise (s : State) (f : FaultRecord) : State :=
  { s with fault := some f, phase := .faulted }

/-- `pc <- pc + 1`, the successor of every completed instruction (spec/40_sequencer.md R84, R85). -/
def State.advancePc (s : State) : State := { s with pc := s.pc + 1 }

/-- The decode phase is over (R82): `phase <- Execute`. -/
def State.enterExecute (s : State) : State := { s with phase := .execute }

/-- The list is exhausted (R84, R86): `phase <- Halted`. -/
def State.halt (s : State) : State := { s with phase := .halted }

/-- A word of `n` bytes was decoded (R82): `IQ <- IQ ++ [i]`, `cur <- cur + n`. -/
def State.appendWord (s : State) (i : Instr) (n : Nat) : State :=
  { s with iq := s.iq ++ [i], cur := s.cur + n }

/-- How every instruction ends (R84): if it raised nothing the program counter advances, and if it raised a
condition the run aborts with `pc` at the instruction and no effect of it (spec/60_exceptions.md R150, R151). -/
def finish (s : State) : Raising State → Result
  | .ok t => .next t.advancePc
  | .error f => .next (s.raise f)

/-- The numeric cause code of the report (spec/60_exceptions.md R144). -/
def faultCode : Option FaultRecord → Nat
  | none => 0
  | some (.unknownOpcode _ _) => 1
  | some (.truncatedStream _ _ _) => 2
  | some (.outOfBounds _ _ _) => 3

/-- The numeric code of the kind of an `OutOfBounds` (R144). -/
def kindCode : AccessKind → Nat
  | .register => 0
  | .memory => 1

end Sys2Proof.Machine
end

