-- ==== Sys2Proof/Machine/Flags.lean ====
section
/-! DEFINITION. The core has no status flags (spec/10_state.md R21). The one truth value it computes is LT's
result, an ordinary 32-bit number 0 or 1 that goes to memory (spec/43_lt.md R136). -/

namespace Sys2Proof.Machine

/-- `1 if a <_u b else 0`: the ALU's one comparison, strict and unsigned, widened to a cell (R136). -/
def ltFlag (a b : Word) : Word := if a.toNat < b.toNat then 1 else 0

end Sys2Proof.Machine
end

