-- ==== Sys2Proof/Machine/Operands.lean ====
section
/-! DEFINITION. The operand forms of the core: the zero-extended immediate, the direct address, the address held
in a register, and the register plus displacement (spec/30_encoding.md R62; spec/20_memory.md R35). -/

namespace Sys2Proof.Machine

/-- `zext_32(v)`: zeros above the value, the number unchanged (spec/00_scope.md R7). -/
def zext32 {n : Nat} (v : BitVec n) : Word := v.setWidth Config.xlen

/-- `a +_32 b`, the ALU's one addition, modulo 2^32 with no carry or overflow indication
(spec/43_lt.md R135). -/
def add32 (a b : Word) : Word := a + b

/-- A direct address is the field itself, used as it stands (READ's B and LT's B, R62). -/
def directAddr (b : Nat) : Nat := b

/-- The address of an indirect store: the whole 32-bit value of `x[c]`
(spec/42_read_write.md R115). -/
def indirectAddr (s : State) (c : Nat) : Raising Nat := do
  let base ← readReg s c
  return base.toNat

/-- LT's address: `x[c] +_32 zext_32(d)`, the sum after wrapping (spec/43_lt.md R130, R135). -/
def displacedAddr (s : State) (c : Nat) (d : BitVec Config.dispBits) : Raising Nat := do
  let base ← readReg s c
  return (add32 base (zext32 d)).toNat

end Sys2Proof.Machine
end

