-- ==== Sys2Proof/Machine/Compare.lean ====
section
/-! DEFINITION. The compare family: LT (spec/43_lt.md). -/

namespace Sys2Proof.Machine

/-- LT (R130): `addr = x[C] +_32 zext_32(D)`, then `M[addr] <- 1 if M[addr] <_u M[B] else 0`. Both reads precede
the write, `M[addr]` first (spec/92_eei_decisions.md D10). -/
def execLt (b c : Nat) (d : BitVec Config.dispBits) (s : State) : Result :=
  finish s (do
    let addr ← displacedAddr s c d
    let op1 ← memRead s addr
    let op2 ← memRead s (directAddr b)
    memWrite s addr (ltFlag op1 op2))

end Sys2Proof.Machine
end

