-- ==== Sys2Proof/Machine/LoadConst.lean ====
section
/-! DEFINITION. The constant-load family: LOAD_CONST (spec/41_load_const.md). -/

namespace Sys2Proof.Machine

/-- LOAD_CONST (R100): `x[C] <- zext_32(B)`. -/
def execLoadConst (b : BitVec Config.immBits) (c : Nat) (s : State) : Result :=
  finish s (writeReg s c (zext32 b))

end Sys2Proof.Machine
end

