-- ==== Sys2Proof/Machine/Transfer.lean ====
section
/-! DEFINITION. The memory-transfer family: READ and WRITE (spec/42_read_write.md). -/

namespace Sys2Proof.Machine

/-- READ (R110): `x[C] <- M[B]`, B a direct address. -/
def execRead (b c : Nat) (s : State) : Result :=
  finish s (do
    let v ← memRead s (directAddr b)
    writeReg s c v)

/-- WRITE (R115): `M[x[C]] <- x[B]`. The address register is read first (spec/92_eei_decisions.md D10). -/
def execWrite (b c : Nat) (s : State) : Result :=
  finish s (do
    let addr ← indirectAddr s c
    let data ← readReg s b
    memWrite s addr data)

end Sys2Proof.Machine
end

