-- ==== Sys2Proof/Machine/Dispatch.lean ====
section
/-! DEFINITION. One arm per instruction (spec/40_sequencer.md R84). -/

namespace Sys2Proof.Machine

def exec (i : Instr) (s : State) : Host.Outcome State Fault Refusal :=
  match i with
  | .loadConst b c => Sys2Proof.Machine.execLoadConst b c s
  | .read b c => Sys2Proof.Machine.execRead b c s
  | .write b c => Sys2Proof.Machine.execWrite b c s
  | .lt b c d => Sys2Proof.Machine.execLt b c d s

end Sys2Proof.Machine
end

