-- ==== Sys2Proof/Machine/Sequencer.lean ====
section
/-! DEFINITION. The sequencer: the decode step and the execute step (spec/40_sequencer.md R82, R84), and how the
host's check places one word. -/

namespace Sys2Proof.Machine

/-- The bytes from the cursor to the end of the stream (spec/20_memory.md R47). -/
def State.remaining (s : State) : List Byte := s.stream.drop s.cur

/-- The decode step (R82). -/
def decodeStep (s : State) : Result :=
  if s.stream.length < s.cur then .fault .cursorPastStream
  else
    match decodeFront s.remaining with
    | .endOfStream => .next s.enterExecute
    | .truncated need have_ => .next (s.raise (.truncatedStream s.cur need have_))
    | .unknownOpcode opcode => .next (s.raise (.unknownOpcode s.cur opcode))
    | .word i n => .next (s.appendWord i n)

/-- The execute step (R84). -/
def executeStep (s : State) : Result :=
  if s.iq.length < s.pc then .fault .pcPastList
  else
    match s.iq[s.pc]? with
    | none => .next s.halt
    | some i => exec i s

/-- Give the core a stream of one instruction word, at the point where the next step runs it: the word decoded,
the cursor at the end of the stream, phase Execute. A word the decoder does not accept is left for the decode
step to meet (log entry 3). -/
def State.placeWord (s : State) (bytes : List Byte) : State :=
  match decodeFront bytes with
  | .word i n =>
    { s with stream := bytes.take n, cur := n, iq := [i], pc := 0, phase := .execute, fault := none }
  | _ => { s with stream := bytes, cur := 0, iq := [], pc := 0, phase := .decode, fault := none }

end Sys2Proof.Machine
end

