-- ==== Sys2Proof/Machine/Step.lean ====
section
/-! DEFINITION. One step of the core: at most one of the two steps of spec/40_sequencer.md is enabled, and none
is in the two terminal phases (spec/10_state.md R19). -/

namespace Sys2Proof.Machine

/-- One step. Halted and Faulted are terminal: no step leaves them (R19; log entry 4). -/
def step (s : State) : Host.Outcome State Fault Refusal :=
  match s.phase with
  | .decode => decodeStep s
  | .execute => executeStep s
  | .halted => .fault .runHalted
  | .faulted => .fault .runFaulted

/-- The state with one word of the opcode table placed where the next step runs it (log entry 3). -/
def State.withFetchWord (s : State) (nbits w : Nat) : State :=
  s.placeWord (firstWordBytes (tableBytes nbits w))

end Sys2Proof.Machine
end

