-- ==== Sys2Proof/Machine/HostMoves.lean ====
section
/-! DEFINITION. What the host may do before and after a run (spec/70_reset_and_hazards.md R173); during a run it
has no move, and each of these then gives `none` (spec/92_eei_decisions.md D16, D19; log entry 11). -/

namespace Sys2Proof.Machine

/-- The run has ended (R174): phase Halted or Faulted. -/
def State.ended (s : State) : Bool := s.phase == .halted || s.phase == .faulted

/-- The only successful end (R174; spec/60_exceptions.md R160). -/
def State.successful (s : State) : Bool := s.phase == .halted && s.fault == none

/-- Supply a stream and start the next run on this core (R170, R178): everything is created fresh. -/
def startRun (s : State) (bytes : List Byte) : Option State :=
  if s.ended then some (State.start bytes) else none

/-- Read the status after the run (R173; spec/10_state.md R22). -/
def readStatus (s : State) : Option (Phase × Option FaultRecord) :=
  if s.ended then some (s.phase, s.fault) else none

/-- Inspect the register `x[i]` after the run (R173; spec/92_eei_decisions.md D9). -/
def inspectReg (s : State) (i : Nat) : Option Word :=
  if s.ended && decide (i < Config.nregs) then some (s.reg i) else none

/-- A snapshot as the host gets it: the pairs, with the status that must go with them
(spec/60_exceptions.md R160). -/
structure SnapshotReport where
  /-- How the run ended. -/
  phase : Phase
  /-- The fault that a snapshot of an aborted run must not hide. -/
  fault : Option FaultRecord
  /-- The (address, value) pairs, in ascending address order. -/
  cells : List (Nat × Word)
  deriving DecidableEq, Repr

/-- Clamp a bound of the host's range into [0, 4096] (spec/20_memory.md R45; spec/92_eei_decisions.md D8). -/
def clampBound (a : Int) : Nat := min a.toNat Config.memsize

/-- The pairs for `n` cells from address `a` on. -/
def cellsFrom (m : Memory) : Nat → Nat → List (Nat × Word)
  | _, 0 => []
  | a, n + 1 => (a, Memory.cell m a) :: cellsFrom m (a + 1) n

/-- `Snapshot(start, end)` (R45): read-only, clamped, empty when the clamped start is not below the clamped
end. -/
def snapshot (s : State) (start stop : Int) : Option SnapshotReport :=
  if s.ended then
    some ⟨s.phase, s.fault,
      cellsFrom s.mem (clampBound start) (clampBound stop - clampBound start)⟩
  else none

end Sys2Proof.Machine
end

