-- ==== Sys2Proof/Safety.lean ====
section
/-! DEFINITION. The terms in which claims about the core are made: runs of many steps, what an instruction leaves
alone, the invariants of the core, and the interleaved machine of spec/40_sequencer.md R91. -/

namespace Sys2Proof.Machine

/-! ## Runs -/

/-- `k` steps of a machine, or the first stop. -/
def runFor (f : State → Result) : Nat → State → Result
  | 0, s => .next s
  | k + 1, s =>
    match f s with
    | .next t => runFor f k t
    | .fault r => .fault r
    | .refused r => .refused r

/-- `t` is the state after `k` steps of a run on the stream `bytes`. -/
abbrev RunReaches (bytes : List Byte) (k : Nat) (t : State) : Prop :=
  runFor step k (State.start bytes) = .next t

/-! ## Frames -/

/-- What every completed instruction does to the counters and the run status
(spec/40_sequencer.md R84, R85): only `pc` moves, by one. -/
structure Completed (s t : State) : Prop where
  pc : t.pc = s.pc + 1
  stream : t.stream = s.stream
  cur : t.cur = s.cur
  iq : t.iq = s.iq
  phase : t.phase = s.phase
  fault : t.fault = s.fault

/-- No register differs. -/
abbrev SameRegs (s t : State) : Prop := ∀ j, t.reg j = s.reg j

/-- No memory cell differs. -/
abbrev SameMem (s t : State) : Prop := ∀ a, Memory.cell t.mem a = Memory.cell s.mem a

/-- The state after `raise f` at `s` (spec/60_exceptions.md R150), every other field kept. -/
abbrev Aborts (s : State) (f : FaultRecord) : Result :=
  .next { s with fault := some f, phase := .faulted }

/-- LT's effective address as a number (spec/43_lt.md R130, R135). -/
def ltAddr (s : State) (c : Nat) (d : BitVec Config.dispBits) : Nat :=
  ((s.reg c).toNat + d.toNat) % 2 ^ 32

/-- The address the instruction stores to at `s`, if it stores (spec/20_memory.md R35). -/
def storeAddr (s : State) : Instr → Option Nat
  | .loadConst _ _ => none
  | .read _ _ => none
  | .write _ c => some (s.reg c).toNat
  | .lt _ c d => some (ltAddr s c d)

/-- The next step of `s` runs an instruction that stores to `a`. -/
def StoresTo (s : State) (a : Nat) : Prop :=
  s.phase = .execute ∧ ∃ i, s.iq[s.pc]? = some i ∧ storeAddr s i = some a

/-- The length of the word that begins with `b0`, in the words of spec/30_encoding.md R52: four bytes when the
opcode nibble is 1, 4 or 9, three for every other nibble. -/
def wordLen (b0 : Byte) : Nat :=
  if b0.toNat % 16 = 1 ∨ b0.toNat % 16 = 4 ∨ b0.toNat % 16 = 9 then 4 else 3

/-- The opcode nibble of the word that begins with `b0` is one of the twelve reserved values (R64). -/
abbrev ReservedNibble (b0 : Byte) : Prop :=
  b0.toNat % 16 ≠ 1 ∧ b0.toNat % 16 ≠ 4 ∧ b0.toNat % 16 ≠ 9 ∧ b0.toNat % 16 ≠ 15

/-! ## Invariants -/

/-- The report belongs to the decode phase (spec/60_exceptions.md R140). -/
def FaultRecord.decodePhase : FaultRecord → Bool
  | .unknownOpcode _ _ => true
  | .truncatedStream _ _ _ => true
  | .outOfBounds _ _ _ => false

/-- What a report says of the state that holds it (spec/60_exceptions.md R141 to R143): where it was raised, and
for a truncated word how many bytes remain. -/
def FaultRecord.fits (s : State) : FaultRecord → Prop
  | .unknownOpcode at_ opcode =>
    at_ = s.cur ∧ s.pc = 0 ∧ s.cur + 3 ≤ s.stream.length ∧ opcode < 16
      ∧ opcode ∉ [1, 4, 9, 15]
  | .truncatedStream at_ need have_ =>
    at_ = s.cur ∧ s.pc = 0 ∧ have_ = s.stream.length - s.cur ∧ 0 < have_ ∧ have_ < need
      ∧ (need = 3 ∨ need = 4)
  | .outOfBounds kind index at_ =>
    at_ = s.pc ∧ s.pc < s.iq.length ∧ s.cur = s.stream.length
      ∧ (kind = .register → 128 ≤ index) ∧ (kind = .memory → 4096 ≤ index)

/-- The counters, the list, the phase and the report of a run agree (spec/10_state.md R16 to R20;
spec/70_reset_and_hazards.md R174). -/
structure RunInv (s : State) : Prop where
  cur_le : s.cur ≤ s.stream.length
  pc_le : s.pc ≤ s.iq.length
  iq_len : 3 * s.iq.length ≤ s.cur
  decode : s.phase = .decode → s.pc = 0 ∧ s.fault = none
  execute : s.phase = .execute → s.cur = s.stream.length ∧ s.fault = none
  halted : s.phase = .halted → s.cur = s.stream.length ∧ s.pc = s.iq.length ∧ s.fault = none
  faulted : s.phase = .faulted → ∃ f, s.fault = some f ∧ f.fits s

/-- The memory is in its canonical form. -/
abbrev MemInv (s : State) : Prop := Memory.wf s.mem = true

/-- The list holds exactly what the consumed part of the stream decodes to (spec/10_state.md R17). -/
def PrefixInv (s : State) : Prop :=
  s.cur ≤ s.stream.length ∧ decodeStream (s.stream.take s.cur) = some s.iq

/-- Every record of the list came from the decoder's widths, and no report names a register
(spec/10_state.md R12). -/
def DecodedInv (s : State) : Prop :=
  (∀ i ∈ s.iq, WellFormed i) ∧ ∀ index at_, s.fault ≠ some (.outOfBounds .register index at_)

/-- Every cell is at most 65535 (spec/10_state.md R24, last part). -/
def SmallInv (s : State) : Prop :=
  (∀ j, (s.reg j).toNat ≤ 65535) ∧ ∀ a, (Memory.cell s.mem a).toNat ≤ 65535

/-- Registers and memory are as reset left them. -/
def Untouched (s : State) : Prop :=
  (∀ j, s.reg j = 0) ∧ ∀ a, Memory.cell s.mem a = 0

/-- Before the stream is decoded, and after a failure to decode it, nothing has been touched
(spec/40_sequencer.md R81). -/
def UntouchedInv (s : State) : Prop :=
  (s.phase = .decode ∨ ∃ f, s.fault = some f ∧ f.decodePhase = true) → Untouched s

/-- How many of the two working phases a run in this phase has yet to leave. -/
def Phase.left : Phase → Nat
  | .decode => 2
  | .execute => 1
  | .halted => 0
  | .faulted => 0

/-- The bytes yet to decode, the records yet to run and the phases yet to leave (spec/40_sequencer.md R83,
R86). -/
def workLeft (s : State) : Nat :=
  (s.stream.length - s.cur) + (s.iq.length - s.pc) + s.phase.left

/-! ## The interleaved machine (spec/40_sequencer.md R91) -/

/-- A machine that fetches, decodes and executes one word at a time: decode the word at the cursor, execute it at
once, advance. It is no part of the core; R91 compares the core with it. -/
def interleavedStep (s : State) : Result :=
  match s.phase with
  | .decode =>
    if s.stream.length < s.cur then .fault .cursorPastStream
    else
      match decodeFront s.remaining with
      | .endOfStream => .next s.halt
      | .truncated need have_ => .next (s.raise (.truncatedStream s.cur need have_))
      | .unknownOpcode opcode => .next (s.raise (.unknownOpcode s.cur opcode))
      | .word i n => exec i (s.appendWord i n)
  | .execute => .fault .pcPastList
  | .halted => .fault .runHalted
  | .faulted => .fault .runFaulted

/-- Where the two machines agree: registers, memory, program counter, report, and whether the run has ended. -/
structure SameProgress (t u : State) : Prop where
  regs : t.regs = u.regs
  mem : t.mem = u.mem
  pc : t.pc = u.pc
  fault : t.fault = u.fault
  halted : t.phase = .halted ↔ u.phase = .halted
  faulted : t.phase = .faulted ↔ u.phase = .faulted

end Sys2Proof.Machine
end

