-- ==== Sys2Proof/Certificates/Slice0/Obligations.lean ====
section
/-! DEFINITION. The statements for the provers, each from the spec's numbered rules. A statement that rests on an
inference the spec marks as its own, or on a choice of the model, says so here and in OBLIGATIONS.json. -/

open Sys2Proof Sys2Proof.Machine

/-! ## Reset -/

/-- R25, R170: what reset leaves, for every stream the host supplies, which reset does not touch. The values of
`pc`, `IQ`, `phase` and `fault` are the spec's decision D7. -/
def Obligations.ResetSetsEveryItem : Prop :=
  ∀ bytes : List Byte,
    (∀ j, (State.start bytes).reg j = 0) ∧ (∀ a, Memory.cell (State.start bytes).mem a = 0)
      ∧ (State.start bytes).stream = bytes ∧ (State.start bytes).cur = 0
      ∧ (State.start bytes).iq = [] ∧ (State.start bytes).pc = 0
      ∧ (State.start bytes).phase = .decode ∧ (State.start bytes).fault = none

/-- R178: a run started after an ended one begins as any run does (R170), whatever the first run left. -/
def Obligations.NextRunStartsFresh : Prop :=
  ∀ (s : State) (bytes : List Byte), s.phase = .halted ∨ s.phase = .faulted →
    startRun s bytes = some (State.start bytes)

/-! ## The instructions: results, frames and completion -/

/-- R100: LOAD_CONST writes the zero-extended immediate to `x[C]` and nothing else. A hand-built record with C
above 127 raises and has no effect: that such records can be written down is log entry 6, and that R12's check is
kept for them is the spec's decision D21. -/
def Obligations.LoadConstWritesImmediate : Prop :=
  ∀ (b : BitVec 16) (c : Nat) (s : State),
    (c < 128 → ∃ t, exec (.loadConst b c) s = .next t ∧ (t.reg c).toNat = b.toNat
      ∧ (∀ j, j ≠ c → t.reg j = s.reg j) ∧ SameMem s t ∧ Completed s t) ∧
    (128 ≤ c → exec (.loadConst b c) s = Aborts s (.outOfBounds .register c s.pc))

/-- R110: READ copies the cell at its direct address to `x[C]` and changes nothing else; past the memory it
raises with the address as the index and has no effect. -/
def Obligations.ReadCopiesCell : Prop :=
  ∀ (b c : Nat) (s : State),
    (b < 4096 → c < 128 → ∃ t, exec (.read b c) s = .next t ∧ t.reg c = Memory.cell s.mem b
      ∧ (∀ j, j ≠ c → t.reg j = s.reg j) ∧ SameMem s t ∧ Completed s t) ∧
    (4096 ≤ b → exec (.read b c) s = Aborts s (.outOfBounds .memory b s.pc))

/-- R115: WRITE stores `x[B]` at the address that is the value of `x[C]` and changes nothing else; past the memory
it raises with the value of `x[C]` as the index (decision D11) and has no effect. -/
def Obligations.WriteStoresRegister : Prop :=
  ∀ (b c : Nat) (s : State), b < 128 → c < 128 →
    ((s.reg c).toNat < 4096 →
      ∃ t, exec (.write b c) s = .next t ∧ Memory.cell t.mem (s.reg c).toNat = s.reg b
        ∧ (∀ a, a ≠ (s.reg c).toNat → Memory.cell t.mem a = Memory.cell s.mem a)
        ∧ SameRegs s t ∧ Completed s t) ∧
    (4096 ≤ (s.reg c).toNat →
      exec (.write b c) s = Aborts s (.outOfBounds .memory (s.reg c).toNat s.pc))

/-- R130: LT replaces the cell at the wrapped sum by 1 or 0, by the strict unsigned comparison of the numbers it
held and the direct cell holds, and changes nothing else; when the sum is past the memory it raises with the
wrapped sum as the index (decision D11) and has no effect. The direct address of a decoded LT is below 128 and so
always inside the memory. -/
def Obligations.LtWritesComparison : Prop :=
  ∀ (b c : Nat) (d : BitVec 8) (s : State), c < 128 →
    (b < 4096 → ltAddr s c d < 4096 →
      ∃ t, exec (.lt b c d) s = .next t
        ∧ (Memory.cell t.mem (ltAddr s c d)).toNat
            = (if (Memory.cell s.mem (ltAddr s c d)).toNat < (Memory.cell s.mem b).toNat then 1 else 0)
        ∧ (∀ a, a ≠ ltAddr s c d → Memory.cell t.mem a = Memory.cell s.mem a)
        ∧ SameRegs s t ∧ Completed s t) ∧
    (4096 ≤ ltAddr s c d →
      exec (.lt b c d) s = Aborts s (.outOfBounds .memory (ltAddr s c d) s.pc))

/-- R131 and R117, which the spec marks as derived from R130 and R115: LT on one cell for both operands clears
the cell, and WRITE with one register for both roles stores the register at the address it holds. -/
def Obligations.AliasedOperandsActAsOne : Prop :=
  (∀ (b c : Nat) (d : BitVec 8) (s : State), b < 4096 → c < 128 → ltAddr s c d = b →
    ∃ t, exec (.lt b c d) s = .next t ∧ Memory.cell t.mem b = 0) ∧
  (∀ (r : Nat) (s : State), r < 128 →
    ((s.reg r).toNat < 4096 →
        ∃ t, exec (.write r r) s = .next t ∧ Memory.cell t.mem (s.reg r).toNat = s.reg r) ∧
      (4096 ≤ (s.reg r).toNat →
        exec (.write r r) s = Aborts s (.outOfBounds .memory (s.reg r).toNat s.pc)))

/-- R12: an access with a register index past the bank raises at that index and has no effect, in each of the
places where an instruction makes one. Where a hand-built record breaks two bounds, the first access of its rule's
pseudocode raises (R8: statements run top to bottom; log entry 13), so READ's index counts when its address is
legal, and WRITE's data index when its address index is legal. That the check stays in the model is decision D21
(log entry 6). -/
def Obligations.RegisterIndexPastBankAborts : Prop :=
  (∀ (b : BitVec 16) (c : Nat) (s : State), 128 ≤ c →
      exec (.loadConst b c) s = Aborts s (.outOfBounds .register c s.pc)) ∧
    (∀ (b c : Nat) (s : State), b < 4096 → 128 ≤ c →
      exec (.read b c) s = Aborts s (.outOfBounds .register c s.pc)) ∧
    (∀ (b c : Nat) (s : State), 128 ≤ c →
      exec (.write b c) s = Aborts s (.outOfBounds .register c s.pc)) ∧
    (∀ (b c : Nat) (s : State), 128 ≤ b → c < 128 →
      exec (.write b c) s = Aborts s (.outOfBounds .register b s.pc)) ∧
    (∀ (b c : Nat) (d : BitVec 8) (s : State), 128 ≤ c →
      exec (.lt b c d) s = Aborts s (.outOfBounds .register c s.pc))

/-- D21 and log entry 6: a hand-built LT whose direct address is past the memory raises at that address. -/
def Obligations.LtDirectAddressPastMemoryAborts : Prop :=
  ∀ (b c : Nat) (d : BitVec 8) (s : State), c < 128 → ltAddr s c d < 4096 → 4096 ≤ b →
    exec (.lt b c d) s = Aborts s (.outOfBounds .memory b s.pc)

/-- No instruction stops the model: exec answers a next state for every record and every state. -/
def Obligations.EveryInstructionAnswersNextState : Prop :=
  ∀ (i : Instr) (s : State), ∃ t, exec i s = .next t

/-- From R13: which instruction may change which register, in every outcome. -/
def Obligations.RegistersWrittenByLoadConstAndReadOnly : Prop :=
  ∀ (i : Instr) (s t : State), exec i s = .next t →
    match i with
    | .loadConst _ c => ∀ j, j ≠ c → t.reg j = s.reg j
    | .read _ c => ∀ j, j ≠ c → t.reg j = s.reg j
    | .write _ _ => SameRegs s t
    | .lt _ _ _ => SameRegs s t

/-- From R35: which cell an instruction may change, in every outcome, with the address its rule computes. -/
def Obligations.MemoryWrittenAtStoreAddressOnly : Prop :=
  ∀ (i : Instr) (s t : State), exec i s = .next t →
    ∀ a, storeAddr s i ≠ some a → Memory.cell t.mem a = Memory.cell s.mem a

/-- R150: a step that raises writes the report and the phase and nothing else, and no step is enabled after
it. -/
def Obligations.RaiseWritesOnlyReportAndPhase : Prop :=
  ∀ s t : State, step s = .next t → t.phase = .faulted →
    (∃ f, t = { s with fault := some f, phase := .faulted }) ∧ ∀ u, step t ≠ .next u

/-- From R20 (its field names are the spec's decision D4) and R140: a step that raises reports the condition of
the phase it is in, at the cursor or at the program counter, and an OutOfBounds names an index past its bound. -/
def Obligations.ReportBelongsToItsPhase : Prop :=
  ∀ s t : State, step s = .next t → t.phase = .faulted →
    ∃ f, t.fault = some f ∧
      ((s.phase = .decode ∧ ((∃ opcode, f = .unknownOpcode s.cur opcode)
          ∨ ∃ need have_, f = .truncatedStream s.cur need have_)) ∨
        (s.phase = .execute ∧ ∃ kind index, f = .outOfBounds kind index s.pc
          ∧ (kind = .register → 128 ≤ index) ∧ (kind = .memory → 4096 ≤ index)))

/-- R151: after an OutOfBounds at instruction `at_`, that instruction is the one at `pc`, exactly the steps before
it have run, and its own step changed no register and no cell (decision D12). -/
def Obligations.AbortIsPrecise : Prop :=
  ∀ (bytes : List Byte) (k : Nat) (t : State) (kind : AccessKind) (index at_ : Nat),
    RunReaches bytes k t → t.fault = some (.outOfBounds kind index at_) →
      at_ = t.pc ∧ k = t.iq.length + 1 + t.pc + 1 ∧
        ∃ u, RunReaches bytes (t.iq.length + 1 + t.pc) u ∧ u.phase = .execute ∧ u.pc = t.pc
          ∧ t.regs = u.regs ∧ t.mem = u.mem

/-- R143: an instruction that came out of the decoder raises in exactly three cases, with the index the rule's
table gives (for WRITE and LT the spec's decision D11). -/
def Obligations.DecodedInstructionRaisesExactlyWhen : Prop :=
  ∀ (i : Instr) (s t : State), WellFormed i → s.phase = .execute → exec i s = .next t →
    match i with
    | .loadConst _ _ => t.phase = .execute
    | .read b _ =>
      (t.phase = .faulted ↔ 4096 ≤ b) ∧
        (4096 ≤ b → t.fault = some (.outOfBounds .memory b s.pc))
    | .write _ c =>
      (t.phase = .faulted ↔ 4096 ≤ (s.reg c).toNat) ∧
        (4096 ≤ (s.reg c).toNat → t.fault = some (.outOfBounds .memory (s.reg c).toNat s.pc))
    | .lt _ c d =>
      (t.phase = .faulted ↔ 4096 ≤ ltAddr s c d) ∧
        (4096 ≤ ltAddr s c d → t.fault = some (.outOfBounds .memory (ltAddr s c d) s.pc))

/-- R135, R136: the ALU's addition wraps modulo two to the 32, exactly when the base is within the displacement of
two to the 32, and its comparison is strict and unsigned and gives the number 1 or 0. -/
def Obligations.AluAddsAndComparesUnsigned : Prop :=
  (∀ (a : Word) (d : BitVec 8), (add32 a (zext32 d)).toNat = (a.toNat + d.toNat) % 2 ^ 32 ∧
    ((add32 a (zext32 d)).toNat < a.toNat ↔ 2 ^ 32 - d.toNat ≤ a.toNat)) ∧
  ∀ a b : Word, (ltFlag a b).toNat = (if a.toNat < b.toNat then 1 else 0) ∧ ltFlag a a = 0

/-! ## The checked memory accesses -/

/-- R33, R34: a legal write is read back at its address and leaves every other cell, and an access past the
memory raises. -/
def Obligations.CheckedAccessesObeyBounds : Prop :=
  ∀ (s : State) (a : Nat) (v : Word),
    (a < 4096 → memRead s a = .ok (Memory.cell s.mem a) ∧
      ∃ t, memWrite s a v = .ok t ∧ t = { s with mem := t.mem } ∧
        ∀ a', Memory.cell t.mem a' = if a' = a then v else Memory.cell s.mem a') ∧
    (4096 ≤ a → memRead s a = .error (.outOfBounds .memory a s.pc) ∧
      memWrite s a v = .error (.outOfBounds .memory a s.pc))

/-- Log entry 1, the model's choice of form: two canonical memories that read alike are the same data. -/
def Obligations.CanonicalMemoriesThatReadAlikeAreEqual : Prop :=
  ∀ m m' : Memory, Memory.wf m = true → Memory.wf m' = true →
    (∀ a, Memory.cell m a = Memory.cell m' a) → m = m'

/-! ## The sequencer -/

/-- R82, R68 (with D2's order of the two tests, and D1's raise on a reserved nibble): the decode step, arm by arm,
as whole next states. The word is the little-endian number of its bytes, written out as R6 and R53 give it; the
spec takes that formula from general knowledge (G1; log entry 7). -/
def Obligations.DecodeStepFollowsAlgorithm : Prop :=
  ∀ s : State, s.phase = .decode →
    (s.cur = s.stream.length → step s = .next { s with phase := .execute }) ∧
    ∀ b0 : Byte, s.stream[s.cur]? = some b0 →
      (s.stream.length - s.cur < wordLen b0 →
        step s = Aborts s (.truncatedStream s.cur (wordLen b0) (s.stream.length - s.cur))) ∧
      (wordLen b0 ≤ s.stream.length - s.cur → ReservedNibble b0 →
        step s = Aborts s (.unknownOpcode s.cur (b0.toNat % 16))) ∧
      ∀ b1 b2 : Byte, s.stream[s.cur + 1]? = some b1 → s.stream[s.cur + 2]? = some b2 →
        (b0.toNat % 16 = 15 → ∀ w, w = b0.toNat + 256 * b1.toNat + 65536 * b2.toNat →
          step s = .next { s with
            iq := s.iq ++ [.write (w / 2 ^ 4 % 2 ^ 7) (w / 2 ^ 11 % 2 ^ 7)]
            cur := s.cur + 3 }) ∧
        ∀ b3 : Byte, s.stream[s.cur + 3]? = some b3 →
          ∀ w, w = b0.toNat + 256 * b1.toNat + 65536 * b2.toNat + 16777216 * b3.toNat →
          (b0.toNat % 16 = 1 → step s = .next { s with
            iq := s.iq ++ [.loadConst (BitVec.ofNat 16 (w / 2 ^ 4 % 2 ^ 16)) (w / 2 ^ 20 % 2 ^ 7)]
            cur := s.cur + 4 }) ∧
          (b0.toNat % 16 = 4 → step s = .next { s with
            iq := s.iq ++ [.read (w / 2 ^ 4 % 2 ^ 17) (w / 2 ^ 21 % 2 ^ 7)]
            cur := s.cur + 4 }) ∧
          (b0.toNat % 16 = 9 → step s = .next { s with
            iq := s.iq ++ [.lt (w / 2 ^ 4 % 2 ^ 7) (w / 2 ^ 11 % 2 ^ 7)
              (BitVec.ofNat 8 (w / 2 ^ 18 % 2 ^ 8))]
            cur := s.cur + 4 })

/-- R142: when TruncatedStream is raised, and what it records. That a reserved nibble reports it too is the spec's
decision D2 (log entry 8), and the recorded fields are its decision D4 (log entry 9). -/
def Obligations.TruncatedStreamExactlyWhen : Prop :=
  ∀ (s t : State) (b0 : Byte), s.phase = .decode → s.fault = none → s.stream[s.cur]? = some b0 →
    step s = .next t →
    ((∃ at_ need have_, t.fault = some (.truncatedStream at_ need have_)) ↔
        s.stream.length - s.cur < wordLen b0) ∧
      ∀ at_ need have_, t.fault = some (.truncatedStream at_ need have_) →
        at_ = s.cur ∧ need = wordLen b0 ∧ have_ = s.stream.length - s.cur
          ∧ (have_ = 1 ∨ have_ = 2 ∨ have_ = 3) ∧ (need = 3 ∨ need = 4)

/-- R141 (the core's use of the name is the spec's decision D1): when UnknownOpcode is raised, and what it
records. -/
def Obligations.UnknownOpcodeExactlyWhen : Prop :=
  ∀ (s t : State) (b0 : Byte), s.phase = .decode → s.fault = none → s.stream[s.cur]? = some b0 →
    step s = .next t →
    ((∃ at_ opcode, t.fault = some (.unknownOpcode at_ opcode)) ↔
        ReservedNibble b0 ∧ 3 ≤ s.stream.length - s.cur) ∧
      ∀ at_ opcode, t.fault = some (.unknownOpcode at_ opcode) →
        at_ = s.cur ∧ opcode = b0.toNat % 16 ∧ t.iq = s.iq ∧ t.cur = s.cur

/-- R84, and the bytes it comes from by R82: a decode step appends the instruction that the bytes at the cursor
decode to; an execute step is exec of the record at the program counter, with nothing added around it; the end of
the list is the normal end of the run. -/
def Obligations.StepRunsDecodedInstruction : Prop :=
  (∀ (s : State) (i : Instr) (n : Nat), s.phase = .decode → s.cur ≤ s.stream.length →
      decodeFront (s.stream.drop s.cur) = .word i n →
      step s = .next { s with iq := s.iq ++ [i], cur := s.cur + n }) ∧
    (∀ (s : State) (i : Instr), s.phase = .execute → s.iq[s.pc]? = some i → step s = exec i s) ∧
    (∀ s : State, s.phase = .execute → s.pc = s.iq.length →
      step s = .next { s with phase := .halted })

/-- R19 (the phase names are decision D4): no step leaves Halted or Faulted. -/
def Obligations.EndedRunHasNoStep : Prop :=
  ∀ s t : State, s.phase = .halted ∨ s.phase = .faulted → step s ≠ .next t

/-- R85: `pc` moves by one when an instruction completes, `cur` by the length of the word that was decoded, and
neither in any other way. -/
def Obligations.CountersMoveOnlyByCompletionAndDecode : Prop :=
  ∀ s t : State, step s = .next t →
    ((t.pc = s.pc ∧ (s.phase = .decode ∨ s.pc = s.iq.length ∨ t.phase = .faulted)) ∨
      (t.pc = s.pc + 1 ∧ s.phase = .execute ∧ t.phase = .execute ∧ s.pc < s.iq.length)) ∧
    ((t.cur = s.cur ∧ t.iq = s.iq) ∨
      (s.phase = .decode ∧ t.phase = .decode ∧ (∃ i, WellFormed i ∧ t.iq = s.iq ++ [i]) ∧
        ∃ b0, s.stream[s.cur]? = some b0 ∧ t.cur = s.cur + wordLen b0))

/-- From R82, R44 and R17: a decode step never touches the registers, the memory or `pc`; an execute step never
touches the cursor or the list; no step touches the stream. -/
def Obligations.PhasesTouchDisjointState : Prop :=
  ∀ s t : State, step s = .next t →
    t.stream = s.stream ∧
    (s.phase = .decode → t.regs = s.regs ∧ t.mem = s.mem ∧ t.pc = s.pc) ∧
    (s.phase = .execute → t.cur = s.cur ∧ t.iq = s.iq)

/-- From R32: no step changes a cell at 4096 or beyond. -/
def Obligations.NoCellBeyondMemoryChanges : Prop :=
  ∀ s t : State, step s = .next t → ∀ a, 4096 ≤ a → Memory.cell t.mem a = Memory.cell s.mem a

/-- R118: a READ of `a` in a run after a WRITE to `a`, with no store to `a` between them, gives the value
written. -/
def Obligations.ReadAfterWriteGivesValueWritten : Prop :=
  ∀ (s t u : State) (b c c' a k : Nat),
    s.phase = .execute → s.iq[s.pc]? = some (.write b c) → b < 128 → c < 128 →
    (s.reg c).toNat = a → a < 4096 → step s = .next t →
    runFor step k t = .next u →
    (∀ j v, j < k → runFor step j t = .next v → ¬ StoresTo v a) →
    u.phase = .execute → u.iq[u.pc]? = some (.read a c') → c' < 128 →
    ∃ w, step u = .next w ∧ w.reg c' = s.reg b

/-! ## Encoding -/

/-- R75, its first two sentences: decoding an encoded well-formed instruction gives it back, whatever bytes follow
it; and a record of the encoder with fields of any size, which carries no A or its own opcode as A (R76), decodes
to the record with every field reduced modulo two to its width. -/
def Obligations.DecodeEncodeRoundTrip : Prop :=
  (∀ (i : Instr) (rest : List Byte), WellFormed i →
    decodeFront (encode i ++ rest) = .word i (encode i).length) ∧
  (∀ (r : SourceRecord) (i : Instr), r.instr = some i → r.a = none ∨ r.a = some i.opcode →
    ∃ bs, encodeRecord r = .ok bs ∧ bs.length = (match i with | .write _ _ => 3 | _ => 4) ∧
      decodeFront bs = .word
        (match i with
          | .loadConst _ _ => .loadConst (BitVec.ofNat 16 (r.b % 2 ^ 16)) (r.c % 2 ^ 7)
          | .read _ _ => .read (r.b % 2 ^ 17) (r.c % 2 ^ 7)
          | .write _ _ => .write (r.b % 2 ^ 7) (r.c % 2 ^ 7)
          | .lt _ _ _ => .lt (r.b % 2 ^ 7) (r.c % 2 ^ 7) (BitVec.ofNat 8 (r.d % 2 ^ 8)))
        bs.length)

/-- From R70, R71 and R75, over a whole program: the stream of well-formed records decodes to the records, and
what the encoder makes of any source program decodes to its records with their fields reduced. -/
def Obligations.EncodedProgramDecodesToItself : Prop :=
  (∀ is : List Instr, (∀ i ∈ is, WellFormed i) → decodeStream (encodeStream is) = some is) ∧
  (∀ (rs : List SourceRecord) (bs : List Byte), assemble rs = .ok bs →
    ∃ is : List Instr, rs.map SourceRecord.instr = is.map some ∧ decodeStream bs = some (is.map Instr.narrow))

/-- R73: one unknown name aborts the encoding of the whole program. -/
def Obligations.UnknownNameAbortsAssembly : Prop :=
  ∀ (rs : List SourceRecord) (r : SourceRecord), r ∈ rs → r.instr = none →
    (∃ e, assemble rs = .error e) ∧ encodeRecord r = .error (.unknownOpcode r.name)

/-- R76: the seven accepted strings, in any letter case, and the instruction each names; what a letter's lower case
is (A to Z become a to z and no other character has one) is log entry 14. The last clause is decision D13 with log
entry 14: a record whose own A is not its mnemonic's opcode is refused. -/
def Obligations.MnemonicsSelectInstructions : Prop :=
  "ABCDEFGHIJKLMNOPQRSTUVWXYZ".toList.map lowerChar = "abcdefghijklmnopqrstuvwxyz".toList ∧
  (∀ ch : Char, ch ∉ "ABCDEFGHIJKLMNOPQRSTUVWXYZ".toList → lowerChar ch = ch) ∧
  ∀ r : SourceRecord,
    (r.name.map lowerChar ∈ ["load_const".toList, "ldc".toList, "const".toList] →
      r.instr = some (.loadConst (BitVec.ofNat 16 r.b) r.c)) ∧
    (r.name.map lowerChar = "read".toList → r.instr = some (.read r.b r.c)) ∧
    (r.name.map lowerChar = "write".toList → r.instr = some (.write r.b r.c)) ∧
    (r.name.map lowerChar ∈ ["lt".toList, "<".toList] →
      r.instr = some (.lt r.b r.c (BitVec.ofNat 8 r.d))) ∧
    (r.name.map lowerChar ∉ ["load_const".toList, "ldc".toList, "const".toList, "read".toList,
      "write".toList, "lt".toList, "<".toList] → r.instr = none) ∧
    (∀ i a, r.instr = some i → r.a = some a → a ≠ i.opcode →
      encodeRecord r = .error (.opcodeMismatch a))

/-- R75, last sentence, which the spec marks as derived: encoding a decoded word clears its pad bits. -/
def Obligations.EncodeDecodedWordClearsPad : Prop :=
  ∀ (w : Nat) (i : Instr), decodeWord w = some i →
    encodeWord i = w % 2 ^ i.fieldBits

/-- R63: the encoder writes the pad bits as zero and the decoder ignores them. -/
def Obligations.PadBitsAreZeroAndIgnored : Prop :=
  (∀ i : Instr, encodeWord i < 2 ^ i.fieldBits) ∧
  (∀ (w p : Nat) (i : Instr), decodeWord w = some i →
    decodeWord (w % 2 ^ i.fieldBits + p * 2 ^ i.fieldBits) = some i)

/-- R52, R64: the length and the instruction of each nibble: four defined, every other reserved and three bytes
long. -/
def Obligations.NibbleSelectsInstructionAndLength : Prop :=
  (∀ a : Nat, ilen a = if a = 1 ∨ a = 4 ∨ a = 9 then 4 else 3) ∧
  ∀ w : Nat,
    (w % 16 = 1 ↔ ∃ b c, decodeWord w = some (.loadConst b c)) ∧
    (w % 16 = 4 ↔ ∃ b c, decodeWord w = some (.read b c)) ∧
    (w % 16 = 15 ↔ ∃ b c, decodeWord w = some (.write b c)) ∧
    (w % 16 = 9 ↔ ∃ b c d, decodeWord w = some (.lt b c d)) ∧
    (decodeWord w = none ↔ w % 16 ≠ 1 ∧ w % 16 ≠ 4 ∧ w % 16 ≠ 9 ∧ w % 16 ≠ 15)

/-- Derived in R12 from R57 to R60: whatever is decoded is well-formed and as long as its opcode says. -/
def Obligations.DecodedInstructionIsWellFormed : Prop :=
  ∀ (bs : List Byte) (i : Instr) (n : Nat), decodeFront bs = .word i n →
    WellFormed i ∧ n = (match i with | .write _ _ => 3 | _ => 4) ∧ n ≤ bs.length

/-- Words written out from the format tables (spec/95_test_vectors.md V1 to V4) decode to the instructions they
stand for. -/
def Obligations.WrittenOutWordsDecode : Prop :=
  decodeFront [0x31, 0x06, 0x20, 0x00] = .word (.loadConst 99 2) 4 ∧
  decodeFront [0xA4, 0x00, 0x80, 0x00] = .word (.read 10 4) 4 ∧
  decodeFront [0x2F, 0x18, 0x00] = .word (.write 2 3) 3 ∧
  decodeFront [0x59, 0x30, 0x28, 0x00] = .word (.lt 5 6 10) 4

/-- Log entry 3, the model's check entry: placing a well-formed word makes the very next step run it, with the
registers and memory as they were; and placed in `State.reset` it gives exactly the state that a run on the word's
bytes reaches when its decode phase is over. -/
def Obligations.PlacedWordRunsNext : Prop :=
  ∀ i : Instr, WellFormed i →
    (∀ s : State, ∃ t, t = s.withFetchWord (8 * (encode i).length) (encodeWord i) ∧ t.regs = s.regs
      ∧ t.mem = s.mem ∧ t.iq = [i] ∧ t.pc = 0 ∧ t.stream = encode i ∧ t.cur = (encode i).length
      ∧ t.phase = .execute ∧ t.fault = none ∧ step t = exec i t) ∧
    RunReaches (encode i) 2 (State.reset.withFetchWord (8 * (encode i).length) (encodeWord i))

/-! ## Invariants of the whole machine -/

/-- R16 to R20, R174: every step keeps the agreement of counters, list, phase and report. -/
def Obligations.RunInvariantKeptByEveryStep : Prop :=
  ∀ s t : State, RunInv s → step s = .next t → RunInv t

/-- Log entry 1: every step keeps the canonical form of the memory. -/
def Obligations.CanonicalMemoryKeptByEveryStep : Prop :=
  ∀ s t : State, MemInv s → step s = .next t → MemInv t

/-- R17: every step keeps the list equal to what the consumed part of the stream decodes to. -/
def Obligations.ListIsDecodeOfConsumedPrefix : Prop :=
  ∀ s t : State, PrefixInv s → step s = .next t → PrefixInv t

/-- R12, derived there: every step keeps the list well-formed and the report off the registers. -/
def Obligations.RegisterFaultNeverFromDecoder : Prop :=
  ∀ s t : State, DecodedInv s → step s = .next t → DecodedInv t

/-- R24, last part, which the spec marks as derived: every step keeps every cell at most 65535. -/
def Obligations.SmallCellsKeptByEveryStep : Prop :=
  ∀ s t : State, SmallInv s → step s = .next t → SmallInv t

/-- R81, R151 (decision D5 binds every implementation to it), as a step lemma: every step keeps the run invariant
together with registers and memory that nothing has touched before the stream is decoded. -/
def Obligations.UntouchedUntilDecodedKeptByEveryStep : Prop :=
  ∀ s t : State, RunInv s ∧ UntouchedInv s → step s = .next t → RunInv t ∧ UntouchedInv t

/-- The six invariants above hold at `State.reset` (log entry 2) and at the start of every run. -/
def Obligations.InvariantsHoldAtReset : Prop :=
  (RunInv State.reset ∧ MemInv State.reset ∧ PrefixInv State.reset ∧ DecodedInv State.reset
      ∧ SmallInv State.reset ∧ UntouchedInv State.reset) ∧
    ∀ bytes : List Byte, RunInv (State.start bytes) ∧ MemInv (State.start bytes)
      ∧ PrefixInv (State.start bytes) ∧ DecodedInv (State.start bytes) ∧ SmallInv (State.start bytes)
      ∧ UntouchedInv (State.start bytes)

/-- R20, R149: a state that can step holds no report yet, so a report is written at most once. -/
def Obligations.ReportIsWrittenAtMostOnce : Prop :=
  ∀ s t : State, RunInv s → step s = .next t →
    s.fault = none ∧ ((∃ f, t.fault = some f) ↔ t.phase = .faulted)

/-- From spec/93_implementation_defined.md, part 1, last line: in a state the invariant allows, a step is enabled
exactly when the run has not ended. -/
def Obligations.StepEnabledUntilRunEnds : Prop :=
  ∀ s : State, RunInv s →
    ((∃ t, step s = .next t) ↔ (s.phase = .decode ∨ s.phase = .execute))

/-- From R83, R85 and R86, as a step lemma: every step lowers the count of the bytes, records and phases left. -/
def Obligations.EveryStepLowersWorkLeft : Prop :=
  ∀ s t : State, step s = .next t → workLeft t < workLeft s

/-! ## Whole runs, for every stream -/

/-- R81: a run that has not left the decode phase, or ended in it by a failure, has changed no register and no
memory cell (decision D5 says that this binds every implementation). -/
def Obligations.NothingExecutesBeforeStreamIsDecoded : Prop :=
  ∀ (bytes : List Byte) (k : Nat) (t : State), RunReaches bytes k t →
    (t.phase = .decode ∨ ∃ f, t.fault = some f ∧ f.decodePhase = true) → Untouched t

/-- R86 (its bound from R83, which the spec marks as derived): every run ends. -/
def Obligations.EveryRunEnds : Prop :=
  ∀ bytes : List Byte, ∃ k t, k ≤ 2 * (bytes.length / 3) + 2 ∧ RunReaches bytes k t
    ∧ (t.phase = .halted ∨ t.phase = .faulted)

/-- R87: two runs on the same stream end in the same state, after the same number of steps. -/
def Obligations.RunsOfOneStreamEndAlike : Prop :=
  ∀ (bytes : List Byte) (k k' : Nat) (t t' : State), RunReaches bytes k t → RunReaches bytes k' t' →
    (t.phase = .halted ∨ t.phase = .faulted) → (t'.phase = .halted ∨ t'.phase = .faulted) →
    k = k' ∧ t = t'

/-- R174: what a Halted run has done, and that a Faulted run says which condition ended it (the report's fields
and the counters after a failure are decisions D4 and D18). -/
def Obligations.EndedRunSaysHowItEnded : Prop :=
  ∀ (bytes : List Byte) (k : Nat) (t : State), RunReaches bytes k t →
    (t.phase = .halted →
      decodeStream bytes = some t.iq ∧ t.pc = t.iq.length ∧ t.cur = bytes.length ∧ t.fault = none) ∧
    (t.phase = .faulted → ∃ f, t.fault = some f ∧ f.fits t)

/-- R93: the steps of a run that halts, phase by phase. -/
def Obligations.HaltedRunStepCount : Prop :=
  ∀ (bytes : List Byte) (k : Nat) (t : State), RunReaches bytes k t → t.phase = .halted →
    k = t.iq.length + 1 + t.iq.length + 1 ∧
    (∀ j ≤ t.iq.length, ∃ u, RunReaches bytes j u ∧ u.phase = .decode ∧ u.iq.length = j) ∧
    (∀ j ≤ t.iq.length, ∃ u, RunReaches bytes (t.iq.length + 1 + j) u ∧ u.phase = .execute
      ∧ u.pc = j)

/-- R91, which the spec marks as derived: on a stream that decodes cleanly the interleaved machine passes through
the same register and memory states as the core does after its decode phase: each state of either machine has its
match in the other, the last ones included. -/
def Obligations.InterleavedMachineAgreesOnCleanStreams : Prop :=
  ∀ (bytes : List Byte) (is : List Instr), decodeStream bytes = some is → ∀ k : Nat,
    (∀ t, runFor interleavedStep k (State.start bytes) = .next t →
      ∃ u, RunReaches bytes (is.length + 1 + k) u ∧ SameProgress t u) ∧
    (∀ u, RunReaches bytes (is.length + 1 + k) u →
      ∃ t, runFor interleavedStep k (State.start bytes) = .next t ∧ SameProgress t u)

/-! ## The host -/

/-- R45: the snapshot of an ended run holds exactly the cells of the clamped range, in ascending order (negative
and inverted bounds by decision D8). -/
def Obligations.SnapshotListsClampedRange : Prop :=
  ∀ (s : State) (start stop : Int), s.phase = .halted ∨ s.phase = .faulted →
    ∃ l, snapshot s start stop = some ⟨s.phase, s.fault, l⟩ ∧
      (∀ a v, (a, v) ∈ l ↔
        min (max start 0) 4096 ≤ (a : Int) ∧ (a : Int) < min (max stop 0) 4096
          ∧ v = Memory.cell s.mem a) ∧
      l.Pairwise (fun p q => p.1 < q.1)

/-- D16, D19 and log entry 11: while a run is in progress the host has no move. -/
def Obligations.HostHasNoMoveDuringRun : Prop :=
  ∀ (s : State) (bytes : List Byte) (start stop : Int) (i : Nat),
    s.phase = .decode ∨ s.phase = .execute →
    startRun s bytes = none ∧ readStatus s = none ∧ inspectReg s i = none
      ∧ snapshot s start stop = none

/-- R173: after the run the host reads the status and any register (the latter by decision D9). -/
def Obligations.HostReadsStatusAndRegistersAfterRun : Prop :=
  ∀ (s : State) (i : Nat), s.phase = .halted ∨ s.phase = .faulted → i < 128 →
    readStatus s = some (s.phase, s.fault) ∧ inspectReg s i = some (s.reg i)

/-- R144: the numeric cause codes, decision D3. -/
def Obligations.CauseCodesAreNumbered : Prop :=
  faultCode none = 0 ∧ (∀ a o, faultCode (some (.unknownOpcode a o)) = 1) ∧
    (∀ a n h, faultCode (some (.truncatedStream a n h)) = 2) ∧
    (∀ k i a, faultCode (some (.outOfBounds k i a)) = 3) ∧
    kindCode .register = 0 ∧ kindCode .memory = 1
end

