-- ==== Sys2Proof/Laws/Decode.lean ====
section
/-! SUPPORT. The small lemmas of the decoder and the encoder. -/

namespace Sys2Proof

/-- A bit field by division and remainder, the form the arithmetic procedures read. -/
theorem bits_eq (v hi lo : Nat) : bits v hi lo = v / 2 ^ lo % 2 ^ (hi - lo + 1) := by
  rw [bits, Nat.shiftRight_eq_div_pow]

theorem bits_lt (v hi lo : Nat) : bits v hi lo < 2 ^ (hi - lo + 1) :=
  Nat.mod_lt _ (Nat.two_pow_pos _)

@[simp] theorem leBytes_length (n w : Nat) : (leBytes n w).length = n := by
  induction n generalizing w with
  | zero => rfl
  | succ n ih => simp [leBytes, ih]

/-- The little-endian number of the bytes of `w` is `w` cut to that many bytes. -/
theorem le_leBytes (n w : Nat) : le (leBytes n w) = w % 256 ^ n := by
  induction n generalizing w with
  | zero => simp [le, leBytes, Nat.mod_one]
  | succ n ih =>
    have hb : bits w 7 0 % 2 ^ 8 = w % 256 := by simp [bits_eq]
    simp only [leBytes, le, ih, BitVec.toNat_ofNat, hb, Nat.shiftRight_eq_div_pow]
    rw [show (2 : Nat) ^ 8 = 256 from rfl, Nat.pow_succ', Nat.mod_mul]

theorem le_lt (bs : List Byte) : le bs < 256 ^ bs.length := by
  induction bs with
  | nil => simp [le]
  | cons b bs ih =>
    have hb := b.isLt
    simp only [le, List.length_cons, Nat.pow_succ]
    omega

theorem ilen_cases (a : Nat) : ilen a = 3 ∨ ilen a = 4 := by
  unfold ilen
  split <;> simp

theorem opcodeOf_lt (b0 : Byte) : opcodeOf b0 < 16 := bits_lt _ 3 0

@[simp] theorem Instr.ilen_opcode (i : Instr) :
    ilen i.opcode = match i with | .write _ _ => 3 | _ => 4 := by
  cases i <;> rfl

@[simp] theorem encode_length (i : Instr) : (encode i).length = ilen i.opcode := by
  rw [encode, leBytes_length]

/-- All that a word at the front can be. -/
theorem decodeFront_word {bs : List Byte} {i : Instr} {n : Nat} :
    decodeFront bs = .word i n ↔
      ∃ b0 rest, bs = b0 :: rest ∧ n = ilen (opcodeOf b0) ∧ n ≤ bs.length
        ∧ decodeWord (le (bs.take n)) = some i := by
  cases bs with
  | nil => simp [decodeFront]
  | cons b0 rest =>
    simp only [decodeFront]
    split
    · next h =>
      constructor
      · simp
      · rintro ⟨_, _, he, rfl, h', -⟩
        cases he
        omega
    · next h =>
      constructor
      · intro hw
        split at hw <;> cases hw
        next hd => exact ⟨b0, rest, rfl, rfl, Nat.le_of_not_lt h, hd⟩
      · rintro ⟨_, _, he, rfl, -, hd⟩
        cases he
        simp [hd]

theorem decodeFront_endOfStream {bs : List Byte} :
    decodeFront bs = .endOfStream ↔ bs = [] := by
  cases bs with
  | nil => simp [decodeFront]
  | cons b0 rest =>
    simp only [decodeFront]
    split
    · simp
    · split <;> simp

theorem decodeFront_truncated {bs : List Byte} {need have_ : Nat} :
    decodeFront bs = .truncated need have_ ↔
      ∃ b0 rest, bs = b0 :: rest ∧ need = ilen (opcodeOf b0) ∧ have_ = bs.length
        ∧ have_ < need := by
  cases bs with
  | nil => simp [decodeFront]
  | cons b0 rest =>
    simp only [decodeFront]
    split
    · next h =>
      constructor
      · intro he
        cases he
        exact ⟨_, _, rfl, rfl, rfl, h⟩
      · rintro ⟨_, _, he, rfl, rfl, -⟩
        cases he
        rfl
    · next h =>
      constructor
      · split <;> simp
      · rintro ⟨_, _, he, rfl, rfl, h'⟩
        cases he
        exact absurd h' h

theorem decodeFront_unknownOpcode {bs : List Byte} {a : Nat} :
    decodeFront bs = .unknownOpcode a ↔
      ∃ b0 rest, bs = b0 :: rest ∧ a = opcodeOf b0 ∧ ilen a ≤ bs.length
        ∧ decodeWord (le (bs.take (ilen a))) = none := by
  cases bs with
  | nil => simp [decodeFront]
  | cons b0 rest =>
    simp only [decodeFront]
    split
    · next h =>
      constructor
      · simp
      · rintro ⟨_, _, he, rfl, h', -⟩
        cases he
        omega
    · next h =>
      constructor
      · intro hw
        split at hw <;> cases hw
        next hd => exact ⟨b0, rest, rfl, rfl, Nat.le_of_not_lt h, hd⟩
      · rintro ⟨_, _, he, rfl, -, hd⟩
        cases he
        simp [hd]

end Sys2Proof
end

