-- ==== Sys2Proof/Laws/Memory.lean ====
section
/-! SUPPORT. The laws of the data memory: a read after a write, and that every memory operation keeps the
canonical form. -/

namespace Sys2Proof.Machine

/-! ## Reading back -/

theorem Memory.cell_of_not_listed {m : Memory} {a : Nat} (h : ∀ p ∈ m, p.1 ≠ a) :
    Memory.cell m a = Memory.unlisted := by
  induction m with
  | nil => rfl
  | cons p m ih =>
    have hp : a ≠ p.1 := fun e => h p (by simp) e.symm
    simp [Memory.cell, hp, ih fun q hq => h q (by simp [hq])]

theorem Memory.drop_not_listed (m : Memory) (a : Nat) : ∀ p ∈ Memory.drop m a, p.1 ≠ a := by
  simp [Memory.drop]

theorem Memory.cell_drop (m : Memory) (a a' : Nat) :
    Memory.cell (Memory.drop m a) a' = if a' = a then Memory.unlisted else Memory.cell m a' := by
  split
  · subst a'
    exact Memory.cell_of_not_listed (Memory.drop_not_listed m a)
  · induction m with
    | nil => rfl
    | cons p m ih =>
      rw [Memory.drop] at ih ⊢
      by_cases hp : p.1 = a
      · have : a' ≠ p.1 := by omega
        simp_all [Memory.cell]
      · simp_all [Memory.cell]

theorem Memory.cell_place {m : Memory} {a : Nat} (h : ∀ p ∈ m, p.1 ≠ a) (v : Word) (a' : Nat) :
    Memory.cell (Memory.place m a v) a' = if a' = a then v else Memory.cell m a' := by
  induction m with
  | nil => simp [Memory.place, Memory.cell]
  | cons p m ih =>
    have hp : p.1 ≠ a := h p (by simp)
    have ih := ih fun q hq => h q (by simp [hq])
    by_cases hlt : a < p.1
    · simp [Memory.place, hlt, Memory.cell]
    · by_cases ha : a' = p.1
      · subst ha
        simp [Memory.place, hlt, Memory.cell, hp]
      · simp [Memory.place, hlt, Memory.cell, ha, ih]

/-- A read of the written cell gives the value written, and every other cell reads as before. -/
@[simp] theorem Memory.cell_set (m : Memory) (a : Nat) (v : Word) (a' : Nat) :
    Memory.cell (Memory.set m a v) a' = if a' = a then v else Memory.cell m a' := by
  unfold Memory.set
  split
  · next hv => rw [Memory.cell_drop, hv]
  · rw [Memory.cell_place (Memory.drop_not_listed m a), Memory.cell_drop]
    split <;> rfl

@[simp] theorem Memory.cell_nil (a : Nat) : Memory.cell [] a = 0 := rfl

/-! ## The canonical form -/

theorem Memory.wfFrom_mono {m : Memory} {lo lo' : Nat} (hle : lo' ≤ lo)
    (h : Memory.wfFrom lo m = true) : Memory.wfFrom lo' m = true := by
  cases m with
  | nil => rfl
  | cons p m =>
    simp only [Memory.wfFrom, Bool.and_eq_true, decide_eq_true_eq] at h ⊢
    exact ⟨⟨⟨by omega, h.1.1.2⟩, h.1.2⟩, h.2⟩

theorem Memory.wfFrom_drop {m : Memory} {lo : Nat} (h : Memory.wfFrom lo m = true) (a : Nat) :
    Memory.wfFrom lo (Memory.drop m a) = true := by
  induction m generalizing lo with
  | nil => rfl
  | cons p m ih =>
    simp only [Memory.wfFrom, Bool.and_eq_true] at h
    have ih := ih h.2
    simp only [Memory.drop, List.filter_cons] at ih ⊢
    split
    · simp only [Memory.wfFrom, Bool.and_eq_true]
      exact ⟨h.1, ih⟩
    · have : lo ≤ p.1 := by simpa using h.1.1.1
      exact Memory.wfFrom_mono (by omega) ih

theorem Memory.wfFrom_place {m : Memory} {lo a : Nat} {v : Word} (h : Memory.wfFrom lo m = true)
    (hn : ∀ p ∈ m, p.1 ≠ a) (hlo : lo ≤ a) (ha : a < Config.memsize) (hv : v ≠ Memory.unlisted) :
    Memory.wfFrom lo (Memory.place m a v) = true := by
  induction m generalizing lo with
  | nil => simp [Memory.place, Memory.wfFrom, hlo, hv]; exact ha
  | cons p m ih =>
    have hp : p.1 ≠ a := hn p (by simp)
    simp only [Memory.wfFrom, Bool.and_eq_true, decide_eq_true_eq] at h
    by_cases hlt : a < p.1
    · have : a + 1 ≤ p.1 := hlt
      simp only [Memory.place, hlt, if_true, Memory.wfFrom, Bool.and_eq_true, decide_eq_true_eq]
      exact ⟨⟨⟨hlo, ha⟩, by simpa using hv⟩, ⟨⟨this, h.1.1.2⟩, h.1.2⟩, h.2⟩
    · simp only [Memory.place, hlt, if_false, Memory.wfFrom, Bool.and_eq_true, decide_eq_true_eq]
      exact ⟨h.1, ih h.2 (fun q hq => hn q (by simp [hq])) (by omega)⟩

/-- Every memory write inside the memory keeps the canonical form. -/
theorem Memory.wf_set {m : Memory} {a : Nat} (h : Memory.wf m = true) (ha : a < Config.memsize)
    (v : Word) : Memory.wf (Memory.set m a v) = true := by
  unfold Memory.set
  split
  · exact Memory.wfFrom_drop h a
  · next hv =>
    exact Memory.wfFrom_place (Memory.wfFrom_drop h a) (Memory.drop_not_listed m a) (by omega) ha hv

/-- The memory right after reset is in canonical form. -/
theorem Memory.wf_reset : Memory.wf State.reset.mem = true := rfl

theorem Memory.cell_eq_unlisted_of_lt {m : Memory} {lo a : Nat} (h : Memory.wfFrom lo m = true)
    (ha : a < lo) : Memory.cell m a = Memory.unlisted := by
  induction m generalizing lo with
  | nil => rfl
  | cons p m ih =>
    simp only [Memory.wfFrom, Bool.and_eq_true, decide_eq_true_eq] at h
    have hp : a ≠ p.1 := by omega
    simp [Memory.cell, hp, ih h.2 (by omega)]

end Sys2Proof.Machine
end

