-- ==== Sys2Proof/Laws/State.lean ====
section
/-! SUPPORT. One lemma per field per update of the state, and the fields of the state a run starts from. -/

namespace Sys2Proof.Machine

/-! ## `State.setReg` -/

@[simp] theorem State.setReg_regs (s : State) (i : Nat) (v : Word) :
    (s.setReg i v).regs = replaceCell s.regs i v := rfl

@[simp] theorem State.setReg_mem (s : State) (i : Nat) (v : Word) :
    (s.setReg i v).mem = s.mem := rfl

@[simp] theorem State.setReg_stream (s : State) (i : Nat) (v : Word) :
    (s.setReg i v).stream = s.stream := rfl

@[simp] theorem State.setReg_cur (s : State) (i : Nat) (v : Word) :
    (s.setReg i v).cur = s.cur := rfl

@[simp] theorem State.setReg_iq (s : State) (i : Nat) (v : Word) :
    (s.setReg i v).iq = s.iq := rfl

@[simp] theorem State.setReg_pc (s : State) (i : Nat) (v : Word) :
    (s.setReg i v).pc = s.pc := rfl

@[simp] theorem State.setReg_phase (s : State) (i : Nat) (v : Word) :
    (s.setReg i v).phase = s.phase := rfl

@[simp] theorem State.setReg_fault (s : State) (i : Nat) (v : Word) :
    (s.setReg i v).fault = s.fault := rfl

/-! ## `State.setCell` -/

@[simp] theorem State.setCell_regs (s : State) (a : Nat) (v : Word) :
    (s.setCell a v).regs = s.regs := rfl

@[simp] theorem State.setCell_mem (s : State) (a : Nat) (v : Word) :
    (s.setCell a v).mem = Memory.set s.mem a v := rfl

@[simp] theorem State.setCell_stream (s : State) (a : Nat) (v : Word) :
    (s.setCell a v).stream = s.stream := rfl

@[simp] theorem State.setCell_cur (s : State) (a : Nat) (v : Word) :
    (s.setCell a v).cur = s.cur := rfl

@[simp] theorem State.setCell_iq (s : State) (a : Nat) (v : Word) :
    (s.setCell a v).iq = s.iq := rfl

@[simp] theorem State.setCell_pc (s : State) (a : Nat) (v : Word) :
    (s.setCell a v).pc = s.pc := rfl

@[simp] theorem State.setCell_phase (s : State) (a : Nat) (v : Word) :
    (s.setCell a v).phase = s.phase := rfl

@[simp] theorem State.setCell_fault (s : State) (a : Nat) (v : Word) :
    (s.setCell a v).fault = s.fault := rfl

/-! ## `State.raise` -/

@[simp] theorem State.raise_regs (s : State) (f : FaultRecord) :
    (s.raise f).regs = s.regs := rfl

@[simp] theorem State.raise_mem (s : State) (f : FaultRecord) :
    (s.raise f).mem = s.mem := rfl

@[simp] theorem State.raise_stream (s : State) (f : FaultRecord) :
    (s.raise f).stream = s.stream := rfl

@[simp] theorem State.raise_cur (s : State) (f : FaultRecord) :
    (s.raise f).cur = s.cur := rfl

@[simp] theorem State.raise_iq (s : State) (f : FaultRecord) :
    (s.raise f).iq = s.iq := rfl

@[simp] theorem State.raise_pc (s : State) (f : FaultRecord) :
    (s.raise f).pc = s.pc := rfl

@[simp] theorem State.raise_phase (s : State) (f : FaultRecord) :
    (s.raise f).phase = .faulted := rfl

@[simp] theorem State.raise_fault (s : State) (f : FaultRecord) :
    (s.raise f).fault = some f := rfl

/-! ## `State.advancePc` -/

@[simp] theorem State.advancePc_regs (s : State) :
    (s.advancePc).regs = s.regs := rfl

@[simp] theorem State.advancePc_mem (s : State) :
    (s.advancePc).mem = s.mem := rfl

@[simp] theorem State.advancePc_stream (s : State) :
    (s.advancePc).stream = s.stream := rfl

@[simp] theorem State.advancePc_cur (s : State) :
    (s.advancePc).cur = s.cur := rfl

@[simp] theorem State.advancePc_iq (s : State) :
    (s.advancePc).iq = s.iq := rfl

@[simp] theorem State.advancePc_pc (s : State) :
    (s.advancePc).pc = s.pc + 1 := rfl

@[simp] theorem State.advancePc_phase (s : State) :
    (s.advancePc).phase = s.phase := rfl

@[simp] theorem State.advancePc_fault (s : State) :
    (s.advancePc).fault = s.fault := rfl

/-! ## `State.enterExecute` -/

@[simp] theorem State.enterExecute_regs (s : State) :
    (s.enterExecute).regs = s.regs := rfl

@[simp] theorem State.enterExecute_mem (s : State) :
    (s.enterExecute).mem = s.mem := rfl

@[simp] theorem State.enterExecute_stream (s : State) :
    (s.enterExecute).stream = s.stream := rfl

@[simp] theorem State.enterExecute_cur (s : State) :
    (s.enterExecute).cur = s.cur := rfl

@[simp] theorem State.enterExecute_iq (s : State) :
    (s.enterExecute).iq = s.iq := rfl

@[simp] theorem State.enterExecute_pc (s : State) :
    (s.enterExecute).pc = s.pc := rfl

@[simp] theorem State.enterExecute_phase (s : State) :
    (s.enterExecute).phase = .execute := rfl

@[simp] theorem State.enterExecute_fault (s : State) :
    (s.enterExecute).fault = s.fault := rfl

/-! ## `State.halt` -/

@[simp] theorem State.halt_regs (s : State) :
    (s.halt).regs = s.regs := rfl

@[simp] theorem State.halt_mem (s : State) :
    (s.halt).mem = s.mem := rfl

@[simp] theorem State.halt_stream (s : State) :
    (s.halt).stream = s.stream := rfl

@[simp] theorem State.halt_cur (s : State) :
    (s.halt).cur = s.cur := rfl

@[simp] theorem State.halt_iq (s : State) :
    (s.halt).iq = s.iq := rfl

@[simp] theorem State.halt_pc (s : State) :
    (s.halt).pc = s.pc := rfl

@[simp] theorem State.halt_phase (s : State) :
    (s.halt).phase = .halted := rfl

@[simp] theorem State.halt_fault (s : State) :
    (s.halt).fault = s.fault := rfl

/-! ## `State.appendWord` -/

@[simp] theorem State.appendWord_regs (s : State) (i : Instr) (n : Nat) :
    (s.appendWord i n).regs = s.regs := rfl

@[simp] theorem State.appendWord_mem (s : State) (i : Instr) (n : Nat) :
    (s.appendWord i n).mem = s.mem := rfl

@[simp] theorem State.appendWord_stream (s : State) (i : Instr) (n : Nat) :
    (s.appendWord i n).stream = s.stream := rfl

@[simp] theorem State.appendWord_cur (s : State) (i : Instr) (n : Nat) :
    (s.appendWord i n).cur = s.cur + n := rfl

@[simp] theorem State.appendWord_iq (s : State) (i : Instr) (n : Nat) :
    (s.appendWord i n).iq = s.iq ++ [i] := rfl

@[simp] theorem State.appendWord_pc (s : State) (i : Instr) (n : Nat) :
    (s.appendWord i n).pc = s.pc := rfl

@[simp] theorem State.appendWord_phase (s : State) (i : Instr) (n : Nat) :
    (s.appendWord i n).phase = s.phase := rfl

@[simp] theorem State.appendWord_fault (s : State) (i : Instr) (n : Nat) :
    (s.appendWord i n).fault = s.fault := rfl

/-! ## `State.start` -/

@[simp] theorem State.start_regs (bytes : List Byte) :
    (State.start bytes).regs = Vector.replicate Config.nregs 0 := rfl

@[simp] theorem State.start_mem (bytes : List Byte) :
    (State.start bytes).mem = [] := rfl

@[simp] theorem State.start_stream (bytes : List Byte) :
    (State.start bytes).stream = bytes := rfl

@[simp] theorem State.start_cur (bytes : List Byte) :
    (State.start bytes).cur = 0 := rfl

@[simp] theorem State.start_iq (bytes : List Byte) :
    (State.start bytes).iq = [] := rfl

@[simp] theorem State.start_pc (bytes : List Byte) :
    (State.start bytes).pc = 0 := rfl

@[simp] theorem State.start_phase (bytes : List Byte) :
    (State.start bytes).phase = .decode := rfl

@[simp] theorem State.start_fault (bytes : List Byte) :
    (State.start bytes).fault = none := rfl

end Sys2Proof.Machine
end

