-- ==== Sys2Proof/Laws/Ops.lean ====
section
/-! SUPPORT. One lemma per shared operation that says everything it can do. -/

namespace Sys2Proof.Machine

/-! ## Raw registers -/

theorem State.reg_setReg (s : State) (i : Nat) (v : Word) (j : Nat) :
    (s.setReg i v).reg j = if j = i ∧ i < Config.nregs then v else s.reg j := by
  have hlen : s.regs.toList.length = 128 := by simp
  simp only [State.reg, State.setReg_regs, replaceCell, Vector.toList_mk, List.getD_eq_getElem?_getD,
    List.getElem?_set, hlen]
  by_cases hij : i = j
  · subst j
    by_cases hi : i < Config.nregs
    · simp [hi]
    · simp [hi]
  · simp [hij, Ne.symm hij]

theorem State.reg_of_regs_eq {s t : State} (h : t.regs = s.regs) (j : Nat) : t.reg j = s.reg j := by
  simp [State.reg, h]

@[simp] theorem State.reg_setCell (s : State) (a : Nat) (v : Word) (j : Nat) :
    (s.setCell a v).reg j = s.reg j := rfl

@[simp] theorem State.reg_raise (s : State) (f : FaultRecord) (j : Nat) :
    (s.raise f).reg j = s.reg j := rfl

@[simp] theorem State.reg_advancePc (s : State) (j : Nat) : s.advancePc.reg j = s.reg j := rfl

@[simp] theorem State.reg_enterExecute (s : State) (j : Nat) :
    s.enterExecute.reg j = s.reg j := rfl

@[simp] theorem State.reg_halt (s : State) (j : Nat) : s.halt.reg j = s.reg j := rfl

@[simp] theorem State.reg_appendWord (s : State) (i : Instr) (n j : Nat) :
    (s.appendWord i n).reg j = s.reg j := rfl

@[simp] theorem State.reg_start (bytes : List Byte) (j : Nat) : (State.start bytes).reg j = 0 := by
  have h : (State.start bytes).regs.toList = List.replicate Config.nregs 0 := rfl
  rw [State.reg, h, List.getD_eq_getElem?_getD, List.getElem?_replicate]
  split <;> rfl

/-! ## Checked accesses -/

theorem readReg_ok {s : State} {i : Nat} {v : Word} :
    readReg s i = .ok v ↔ i < Config.nregs ∧ v = s.reg i := by
  unfold readReg
  split <;> simp_all [eq_comm]

theorem readReg_error {s : State} {i : Nat} {f : FaultRecord} :
    readReg s i = .error f ↔ ¬ i < Config.nregs ∧ f = .outOfBounds .register i s.pc := by
  unfold readReg
  split <;> simp_all [eq_comm]

theorem writeReg_ok {s t : State} {i : Nat} {v : Word} :
    writeReg s i v = .ok t ↔ i < Config.nregs ∧ t = s.setReg i v := by
  unfold writeReg
  split <;> simp_all [eq_comm]

theorem writeReg_error {s : State} {i : Nat} {v : Word} {f : FaultRecord} :
    writeReg s i v = .error f ↔ ¬ i < Config.nregs ∧ f = .outOfBounds .register i s.pc := by
  unfold writeReg
  split <;> simp_all [eq_comm]

theorem memRead_ok {s : State} {a : Nat} {v : Word} :
    memRead s a = .ok v ↔ a < Config.memsize ∧ v = Memory.cell s.mem a := by
  unfold memRead
  split <;> simp_all [eq_comm]

theorem memRead_error {s : State} {a : Nat} {f : FaultRecord} :
    memRead s a = .error f ↔ ¬ a < Config.memsize ∧ f = .outOfBounds .memory a s.pc := by
  unfold memRead
  split <;> simp_all [eq_comm]

theorem memWrite_ok {s t : State} {a : Nat} {v : Word} :
    memWrite s a v = .ok t ↔ a < Config.memsize ∧ t = s.setCell a v := by
  unfold memWrite
  split <;> simp_all [eq_comm]

theorem memWrite_error {s : State} {a : Nat} {v : Word} {f : FaultRecord} :
    memWrite s a v = .error f ↔ ¬ a < Config.memsize ∧ f = .outOfBounds .memory a s.pc := by
  unfold memWrite
  split <;> simp_all [eq_comm]

/-! ## Sequencing inside one instruction -/

theorem Raising.bind_ok {α β : Type} {x : Raising α} {f : α → Raising β} {b : β} :
    (x >>= f) = .ok b ↔ ∃ a, x = .ok a ∧ f a = .ok b := by
  cases x <;> simp [bind, Except.bind]

theorem Raising.bind_error {α β : Type} {x : Raising α} {f : α → Raising β} {e : FaultRecord} :
    (x >>= f) = .error e ↔ x = .error e ∨ ∃ a, x = .ok a ∧ f a = .error e := by
  cases x <;> simp [bind, Except.bind]

/-- An instruction always answers a next state: completed and advanced, or aborted. -/
theorem finish_cases (s : State) (r : Raising State) :
    (∃ t, r = .ok t ∧ finish s r = .next t.advancePc) ∨
      (∃ f, r = .error f ∧ finish s r = .next (s.raise f)) := by
  cases r with
  | ok t => exact .inl ⟨t, rfl, rfl⟩
  | error f => exact .inr ⟨f, rfl, rfl⟩

/-! ## Operand forms and the ALU -/

theorem zext32_toNat {n : Nat} (v : BitVec n) (h : n ≤ Config.xlen) :
    (zext32 v).toNat = v.toNat := by
  simp only [zext32, BitVec.toNat_setWidth]
  exact Nat.mod_eq_of_lt (Nat.lt_of_lt_of_le v.isLt (Nat.pow_le_pow_right (by decide) h))

theorem add32_toNat (a b : Word) : (add32 a b).toNat = (a.toNat + b.toNat) % 2 ^ Config.xlen := by
  simp [add32, BitVec.toNat_add]

theorem indirectAddr_ok {s : State} {c a : Nat} :
    indirectAddr s c = .ok a ↔ c < Config.nregs ∧ a = (s.reg c).toNat := by
  simp only [indirectAddr, Raising.bind_ok, readReg_ok]
  constructor
  · rintro ⟨w, ⟨hc, rfl⟩, h⟩
    exact ⟨hc, by simpa [pure, Except.pure, eq_comm] using h⟩
  · rintro ⟨hc, rfl⟩
    exact ⟨_, ⟨hc, rfl⟩, rfl⟩

theorem indirectAddr_error {s : State} {c : Nat} {f : FaultRecord} :
    indirectAddr s c = .error f ↔ ¬ c < Config.nregs ∧ f = .outOfBounds .register c s.pc := by
  simp [indirectAddr, Raising.bind_error, readReg_error, pure, Except.pure]

theorem displacedAddr_ok {s : State} {c a : Nat} {d : BitVec Config.dispBits} :
    displacedAddr s c d = .ok a ↔
      c < Config.nregs ∧ a = ((s.reg c).toNat + d.toNat) % 2 ^ Config.xlen := by
  have hd : (add32 (s.reg c) (zext32 d)).toNat = ((s.reg c).toNat + d.toNat) % 2 ^ Config.xlen := by
    rw [add32_toNat, zext32_toNat d (by decide)]
  simp only [displacedAddr, Raising.bind_ok, readReg_ok]
  constructor
  · rintro ⟨w, ⟨hc, rfl⟩, h⟩
    exact ⟨hc, by rw [← hd]; simpa [pure, Except.pure, eq_comm] using h⟩
  · rintro ⟨hc, rfl⟩
    exact ⟨_, ⟨hc, rfl⟩, by rw [← hd]; rfl⟩

theorem displacedAddr_error {s : State} {c : Nat} {d : BitVec Config.dispBits} {f : FaultRecord} :
    displacedAddr s c d = .error f ↔ ¬ c < Config.nregs ∧ f = .outOfBounds .register c s.pc := by
  simp [displacedAddr, Raising.bind_error, readReg_error, pure, Except.pure]

theorem ltFlag_cases (a b : Word) :
    (a.toNat < b.toNat ∧ ltFlag a b = 1) ∨ (¬ a.toNat < b.toNat ∧ ltFlag a b = 0) := by
  unfold ltFlag
  split <;> simp_all

end Sys2Proof.Machine
end

