-- ==== Sys2Proof/Laws/PerInstr.lean ====
section
/-! SUPPORT. Statements for all instructions, one lemma per constructor. -/

namespace Sys2Proof.Laws.EncodedLength

/-- The encoded word has the length its opcode's row gives, and carries the opcode in its low nibble
(spec/30_encoding.md R51, R72). -/
def Statement (i : Instr) : Prop :=
  (encode i).length = ilen i.opcode ∧ bits (encodeWord i) 3 0 = i.opcode

theorem loadConst (b : BitVec Config.immBits) (c : Nat) : Statement (.loadConst b c) := by
  refine ⟨encode_length _, ?_⟩
  simp [encodeWord, Instr.opcode, bits_eq]
  omega

theorem read (b c : Nat) : Statement (.read b c) := by
  refine ⟨encode_length _, ?_⟩
  simp [encodeWord, Instr.opcode, bits_eq]
  omega

theorem write (b c : Nat) : Statement (.write b c) := by
  refine ⟨encode_length _, ?_⟩
  simp [encodeWord, Instr.opcode, bits_eq]
  omega

theorem lt (b c : Nat) (d : BitVec Config.dispBits) : Statement (.lt b c d) := by
  refine ⟨encode_length _, ?_⟩
  simp [encodeWord, Instr.opcode, bits_eq]
  omega

end Sys2Proof.Laws.EncodedLength
end

