-- ==== Sys2Proof/Laws/Step.lean ====
section
/-! SUPPORT. What each meaning and one step can do, said once. -/

namespace Sys2Proof.Machine

/-- LOAD_CONST completes or aborts at its register index. -/
theorem execLoadConst_cases {b : BitVec Config.immBits} {c : Nat} {s : State} {r : Result}
    (h : execLoadConst b c s = r) :
    (c < Config.nregs ∧ r = .next (s.setReg c (zext32 b)).advancePc) ∨
      (¬ c < Config.nregs ∧ r = .next (s.raise (.outOfBounds .register c s.pc))) := by
  subst h
  unfold execLoadConst
  obtain ⟨t, ht, hf⟩ | ⟨f, hr, hf⟩ := finish_cases s (writeReg s c (zext32 b))
  · obtain ⟨hc, rfl⟩ := writeReg_ok.1 ht
    exact .inl ⟨hc, hf⟩
  · obtain ⟨hc, rfl⟩ := writeReg_error.1 hr
    exact .inr ⟨hc, hf⟩

/-- READ completes, or aborts at its address, or at its register index. -/
theorem execRead_cases {b c : Nat} {s : State} {r : Result} (h : execRead b c s = r) :
    (b < Config.memsize ∧ c < Config.nregs
        ∧ r = .next (s.setReg c (Memory.cell s.mem b)).advancePc) ∨
      (¬ b < Config.memsize ∧ r = .next (s.raise (.outOfBounds .memory b s.pc))) ∨
      (b < Config.memsize ∧ ¬ c < Config.nregs
        ∧ r = .next (s.raise (.outOfBounds .register c s.pc))) := by
  subst h
  unfold execRead
  obtain ⟨t, ht, hf⟩ | ⟨f, hr, hf⟩ := finish_cases s
    (do let v ← memRead s (directAddr b); writeReg s c v)
  · obtain ⟨v, hv, hw⟩ := Raising.bind_ok.1 ht
    obtain ⟨hb, rfl⟩ := memRead_ok.1 hv
    obtain ⟨hc, rfl⟩ := writeReg_ok.1 hw
    exact .inl ⟨hb, hc, hf⟩
  · obtain hv | ⟨v, hv, hw⟩ := Raising.bind_error.1 hr
    · obtain ⟨hb, rfl⟩ := memRead_error.1 hv
      exact .inr (.inl ⟨hb, hf⟩)
    · obtain ⟨hb, rfl⟩ := memRead_ok.1 hv
      obtain ⟨hc, rfl⟩ := writeReg_error.1 hw
      exact .inr (.inr ⟨hb, hc, hf⟩)

/-- WRITE completes, or aborts at a register index, or at its address. -/
theorem execWrite_cases {b c : Nat} {s : State} {r : Result} (h : execWrite b c s = r) :
    (c < Config.nregs ∧ b < Config.nregs ∧ (s.reg c).toNat < Config.memsize
        ∧ r = .next (s.setCell (s.reg c).toNat (s.reg b)).advancePc) ∨
      (¬ c < Config.nregs ∧ r = .next (s.raise (.outOfBounds .register c s.pc))) ∨
      (c < Config.nregs ∧ ¬ b < Config.nregs
        ∧ r = .next (s.raise (.outOfBounds .register b s.pc))) ∨
      (c < Config.nregs ∧ b < Config.nregs ∧ ¬ (s.reg c).toNat < Config.memsize
        ∧ r = .next (s.raise (.outOfBounds .memory (s.reg c).toNat s.pc))) := by
  subst h
  unfold execWrite
  obtain ⟨t, ht, hf⟩ | ⟨f, hr, hf⟩ := finish_cases s
    (do let addr ← indirectAddr s c; let data ← readReg s b; memWrite s addr data)
  · obtain ⟨a, ha, h1⟩ := Raising.bind_ok.1 ht
    obtain ⟨hc, rfl⟩ := indirectAddr_ok.1 ha
    obtain ⟨v, hv, h2⟩ := Raising.bind_ok.1 h1
    obtain ⟨hb, rfl⟩ := readReg_ok.1 hv
    obtain ⟨hm, rfl⟩ := memWrite_ok.1 h2
    exact .inl ⟨hc, hb, hm, hf⟩
  · obtain ha | ⟨a, ha, h1⟩ := Raising.bind_error.1 hr
    · obtain ⟨hc, rfl⟩ := indirectAddr_error.1 ha
      exact .inr (.inl ⟨hc, hf⟩)
    · obtain ⟨hc, rfl⟩ := indirectAddr_ok.1 ha
      obtain hv | ⟨v, hv, h2⟩ := Raising.bind_error.1 h1
      · obtain ⟨hb, rfl⟩ := readReg_error.1 hv
        exact .inr (.inr (.inl ⟨hc, hb, hf⟩))
      · obtain ⟨hb, rfl⟩ := readReg_ok.1 hv
        obtain ⟨hm, rfl⟩ := memWrite_error.1 h2
        exact .inr (.inr (.inr ⟨hc, hb, hm, hf⟩))

/-- LT completes, or aborts at its register index, at its computed address, or at its direct address. -/
theorem execLt_cases {b c : Nat} {d : BitVec Config.dispBits} {s : State} {r : Result} {a : Nat}
    (ha : a = ((s.reg c).toNat + d.toNat) % 2 ^ Config.xlen) (h : execLt b c d s = r) :
    (c < Config.nregs ∧ a < Config.memsize ∧ b < Config.memsize
        ∧ r = .next (s.setCell a
            (ltFlag (Memory.cell s.mem a) (Memory.cell s.mem b))).advancePc) ∨
      (¬ c < Config.nregs ∧ r = .next (s.raise (.outOfBounds .register c s.pc))) ∨
      (c < Config.nregs ∧ ¬ a < Config.memsize
        ∧ r = .next (s.raise (.outOfBounds .memory a s.pc))) ∨
      (c < Config.nregs ∧ a < Config.memsize ∧ ¬ b < Config.memsize
        ∧ r = .next (s.raise (.outOfBounds .memory b s.pc))) := by
  subst h
  unfold execLt
  obtain ⟨t, ht, hf⟩ | ⟨f, hr, hf⟩ := finish_cases s
    (do let addr ← displacedAddr s c d
        let op1 ← memRead s addr
        let op2 ← memRead s (directAddr b)
        memWrite s addr (ltFlag op1 op2))
  · obtain ⟨a', ha', h1⟩ := Raising.bind_ok.1 ht
    obtain ⟨hc, rfl⟩ := displacedAddr_ok.1 ha'
    rw [← ha] at h1
    obtain ⟨v, hv, h2⟩ := Raising.bind_ok.1 h1
    obtain ⟨hm, rfl⟩ := memRead_ok.1 hv
    obtain ⟨w, hw, h3⟩ := Raising.bind_ok.1 h2
    obtain ⟨hb, rfl⟩ := memRead_ok.1 hw
    obtain ⟨-, rfl⟩ := memWrite_ok.1 h3
    exact .inl ⟨hc, hm, hb, hf⟩
  · obtain ha' | ⟨a', ha', h1⟩ := Raising.bind_error.1 hr
    · obtain ⟨hc, rfl⟩ := displacedAddr_error.1 ha'
      exact .inr (.inl ⟨hc, hf⟩)
    · obtain ⟨hc, rfl⟩ := displacedAddr_ok.1 ha'
      rw [← ha] at h1
      obtain hv | ⟨v, hv, h2⟩ := Raising.bind_error.1 h1
      · obtain ⟨hm, rfl⟩ := memRead_error.1 hv
        exact .inr (.inr (.inl ⟨hc, hm, hf⟩))
      · obtain ⟨hm, rfl⟩ := memRead_ok.1 hv
        obtain hw | ⟨w, hw, h3⟩ := Raising.bind_error.1 h2
        · obtain ⟨hb, rfl⟩ := memRead_error.1 hw
          exact .inr (.inr (.inr ⟨hc, hm, hb, hf⟩))
        · obtain ⟨hn, -⟩ := memWrite_error.1 h3
          exact absurd hm hn

/-- All that an instruction can do: complete by one register write or one cell write inside its array, or raise
an index that is outside. -/
theorem exec_cases {i : Instr} {s : State} {r : Result} (h : exec i s = r) :
    (∃ c v, c < Config.nregs ∧ r = .next (s.setReg c v).advancePc) ∨
      (∃ a v, a < Config.memsize ∧ r = .next (s.setCell a v).advancePc) ∨
      (∃ c, ¬ c < Config.nregs ∧ r = .next (s.raise (.outOfBounds .register c s.pc))) ∨
      (∃ a, ¬ a < Config.memsize ∧ r = .next (s.raise (.outOfBounds .memory a s.pc))) := by
  cases i with
  | loadConst b c =>
    obtain ⟨hc, rfl⟩ | ⟨hc, rfl⟩ := execLoadConst_cases h
    · exact .inl ⟨_, _, hc, rfl⟩
    · exact .inr (.inr (.inl ⟨_, hc, rfl⟩))
  | read b c =>
    obtain ⟨-, hc, rfl⟩ | ⟨hb, rfl⟩ | ⟨-, hc, rfl⟩ := execRead_cases h
    · exact .inl ⟨_, _, hc, rfl⟩
    · exact .inr (.inr (.inr ⟨_, hb, rfl⟩))
    · exact .inr (.inr (.inl ⟨_, hc, rfl⟩))
  | write b c =>
    obtain ⟨-, -, hm, rfl⟩ | ⟨hc, rfl⟩ | ⟨-, hb, rfl⟩ | ⟨-, -, hm, rfl⟩ := execWrite_cases h
    · exact .inr (.inl ⟨_, _, hm, rfl⟩)
    · exact .inr (.inr (.inl ⟨_, hc, rfl⟩))
    · exact .inr (.inr (.inl ⟨_, hb, rfl⟩))
    · exact .inr (.inr (.inr ⟨_, hm, rfl⟩))
  | lt b c d =>
    obtain ⟨-, hm, -, rfl⟩ | ⟨hc, rfl⟩ | ⟨-, hm, rfl⟩ | ⟨-, -, hb, rfl⟩ := execLt_cases rfl h
    · exact .inr (.inl ⟨_, _, hm, rfl⟩)
    · exact .inr (.inr (.inl ⟨_, hc, rfl⟩))
    · exact .inr (.inr (.inr ⟨_, hm, rfl⟩))
    · exact .inr (.inr (.inr ⟨_, hb, rfl⟩))

/-- All that a decode step with a next state can do. -/
theorem decodeStep_cases {s t : State} (h : decodeStep s = .next t) :
    s.cur ≤ s.stream.length ∧
      ((s.remaining = [] ∧ t = s.enterExecute) ∨
        (∃ need have_, decodeFront s.remaining = .truncated need have_
          ∧ t = s.raise (.truncatedStream s.cur need have_)) ∨
        (∃ a, decodeFront s.remaining = .unknownOpcode a
          ∧ t = s.raise (.unknownOpcode s.cur a)) ∨
        (∃ i n, decodeFront s.remaining = .word i n ∧ t = s.appendWord i n)) := by
  unfold decodeStep at h
  split at h
  · cases h
  · next hc =>
    refine ⟨by omega, ?_⟩
    split at h <;> cases h
    · next hf => exact .inl ⟨decodeFront_endOfStream.1 hf, rfl⟩
    · next hf => exact .inr (.inl ⟨_, _, hf, rfl⟩)
    · next hf => exact .inr (.inr (.inl ⟨_, hf, rfl⟩))
    · next hf => exact .inr (.inr (.inr ⟨_, _, hf, rfl⟩))

/-- All that an execute step with a next state can do. -/
theorem executeStep_cases {s t : State} (h : executeStep s = .next t) :
    (s.pc = s.iq.length ∧ t = s.halt) ∨
      (∃ i, s.pc < s.iq.length ∧ s.iq[s.pc]? = some i ∧ exec i s = .next t) := by
  unfold executeStep at h
  split at h
  · cases h
  · next hp =>
    split at h
    · next hn =>
      cases h
      exact .inl ⟨by have := List.getElem?_eq_none_iff.1 hn; omega, rfl⟩
    · next i hi =>
      exact .inr ⟨i, (List.getElem?_eq_some_iff.1 hi).1, hi, h⟩

/-- A step with a next state is a decode step or an execute step. -/
theorem step_cases {s t : State} (h : step s = .next t) :
    (s.phase = .decode ∧ decodeStep s = .next t) ∨
      (s.phase = .execute ∧ executeStep s = .next t) := by
  unfold step at h
  split at h
  · next hp => exact .inl ⟨hp, h⟩
  · next hp => exact .inr ⟨hp, h⟩
  · cases h
  · cases h

/-! ## The check entry -/

/-- What placing a word that decodes does to each field. -/
theorem State.placeWord_word {bytes : List Byte} {i : Instr} {n : Nat} (h : decodeFront bytes = .word i n)
    (s : State) :
    s.placeWord bytes = { s with
      stream := bytes.take n, cur := n, iq := [i], pc := 0, phase := .execute, fault := none } := by
  simp [State.placeWord, h]

end Sys2Proof.Machine
end

