-- ==== Sys2Proof/Tests/Slice0.lean ====
section
/-! SUPPORT. The model's own tests. Expected results come from the spec's worked examples and from
spec/95_test_vectors.md (named in each comment); then, for every statement with hypotheses, a witness that meets
them. -/

open Sys2Proof Sys2Proof.Machine

namespace Sys2Proof.Tests

/-! ## Helpers -/

/-- A state in phase Execute with the given registers and memory cells set, and the given list. -/
def st (regs cells : List (Nat × Word)) (iq : List Instr) : State :=
  let s := { State.start [] with iq := iq, phase := Phase.execute }
  let s := regs.foldl (fun s p => s.setReg p.1 p.2) s
  cells.foldl (fun s p => s.setCell p.1 p.2) s

/-- A property of the next state, false if there is none. -/
def after (r : Result) (p : State → Bool) : Bool :=
  match r with
  | .next t => p t
  | _ => false

/-! ## Well-formedness: one ill-formed term for each check -/

theorem test_wf_accepts_largest_fields :
    WellFormed (.loadConst 0xFFFF 127) ∧ WellFormed (.read 131071 127) ∧
      WellFormed (.write 127 127) ∧ WellFormed (.lt 127 127 255) := by decide

theorem test_wf_refuses_loadConst_c : ¬ WellFormed (.loadConst 0 128) := by decide
theorem test_wf_refuses_read_b : ¬ WellFormed (.read 131072 0) := by decide
theorem test_wf_refuses_read_c : ¬ WellFormed (.read 0 128) := by decide
theorem test_wf_refuses_write_b : ¬ WellFormed (.write 128 0) := by decide
theorem test_wf_refuses_write_c : ¬ WellFormed (.write 0 128) := by decide
theorem test_wf_refuses_lt_b : ¬ WellFormed (.lt 128 0 0) := by decide
theorem test_wf_refuses_lt_c : ¬ WellFormed (.lt 0 128 0) := by decide

/-! ## Decoding: words written out bit by bit from the format tables R57 to R60 -/

/-- R57: pad 00000, C = 0x55, B = 0x1234, A = 1 (V1). -/
theorem test_decode_loadConst :
    decodeWord 0b00000_1010101_0001001000110100_0001 = some (.loadConst 0x1234 0x55) := by decide

/-- R58: pad 0000, C = 0x2A, B = 0x12345, A = 4 (V2). -/
theorem test_decode_read :
    decodeWord 0b0000_0101010_10010001101000101_0100 = some (.read 0x12345 0x2A) := by decide

/-- R59: pad 000000, C = 0x2A, B = 0x55, A = 15 (V3). -/
theorem test_decode_write :
    decodeWord 0b000000_0101010_1010101_1111 = some (.write 0x55 0x2A) := by decide

/-- R60: pad 000000, D = 0xA5, C = 0x2A, B = 0x55, A = 9 (V4). -/
theorem test_decode_lt :
    decodeWord 0b000000_10100101_0101010_1010101_1001 = some (.lt 0x55 0x2A 0xA5) := by decide

/-- Pad bits all ones are dropped (V6). -/
theorem test_decode_drops_pad :
    decodeFront [0x31, 0x06, 0x20, 0xF8] = .word (.loadConst 99 2) 4 ∧
      decodeFront [0x2F, 0x18, 0xFC] = .word (.write 2 3) 3 ∧
      decodeFront [0xF4, 0xFF, 0xFF, 0xFF] = .word (.read 131071 127) 4 ∧
      decodeFront [0xF9, 0xFF, 0xFF, 0xFF] = .word (.lt 127 127 255) 4 := by decide

/-- Truncated words and reserved nibbles, truncation tested first (V6). -/
theorem test_decode_failures :
    decodeFront [0x31, 0x06, 0x20] = .truncated 4 3 ∧ decodeFront [0x2F, 0x18] = .truncated 3 2 ∧
      decodeFront [0x00] = .truncated 3 1 ∧ decodeFront [0x00, 0x00, 0x00] = .unknownOpcode 0 ∧
      decodeFront [0xA2, 0x00, 0x00] = .unknownOpcode 2 := by decide

/-- The length of each of the sixteen nibbles (V5). -/
theorem test_lengths :
    (List.range 16).map ilen = [3, 4, 3, 3, 4, 3, 3, 3, 3, 4, 3, 3, 3, 3, 3, 3] := by decide

/-- Encodings of V1 to V4. -/
theorem test_encode :
    encode (.loadConst 0xFFFF 127) = [0xF1, 0xFF, 0xFF, 0x07] ∧
      encode (.read 0x12345 0x2A) = [0x54, 0x34, 0x52, 0x05] ∧
      encode (.write 0x55 0x2A) = [0x5F, 0x55, 0x01] ∧
      encode (.lt 0x55 0x2A 0xA5) = [0x59, 0x55, 0x95, 0x02] := by decide

/-- The encoder cuts wide fields: V2's and V4's encoder inputs, S3, and a name in capitals. -/
theorem test_encode_truncates :
    (encodeRecord ⟨['R', 'E', 'A', 'D'], none, 0x3FFFF, 131, 0⟩).toOption
        = some [0xF4, 0xFF, 0x7F, 0x00] ∧
      (encodeRecord ⟨['<'], none, 1, 2, 0x1FF⟩).toOption = some [0x19, 0x10, 0xFC, 0x03] ∧
      (encodeRecord ⟨['l', 'd', 'c'], some 1, 0x1FFFF, 0, 0⟩).toOption
        = some [0xF1, 0xFF, 0x0F, 0x00] := by decide

/-- An unknown name aborts, and so does a record with another A (R73, D13). -/
theorem test_encode_refuses :
    (assemble [⟨['r', 'e', 'a', 'd'], none, 0, 0, 0⟩, ⟨['a', 'd', 'd'], none, 0, 0, 0⟩]).toOption = none ∧
      (encodeRecord ⟨['r', 'e', 'a', 'd'], some 1, 0, 0, 0⟩).toOption = none := by decide

/-! ## The table's words run as the first step -/

theorem test_table_words :
    decodeTableWord 32 1 = some (.loadConst 0 0) ∧ decodeTableWord 32 4 = some (.read 0 0) ∧
      decodeTableWord 24 15 = some (.write 0 0) ∧ decodeTableWord 32 9 = some (.lt 0 0 0) := by decide

theorem test_placed_word_runs_first :
    after (step (State.reset.withFetchWord 32 0x00200631)) (fun t => t.reg 2 == 99 && t.pc == 1) = true := by
  decide

theorem test_placed_reserved_word_raises :
    after (step (State.reset.withFetchWord 24 0xA2)) (fun t => t.fault == some (.unknownOpcode 0 2)) = true := by
  decide

/-! ## One step of each instruction -/

/-- V1: bit 15 of the immediate does not spread, and the old value is lost whole. -/
theorem test_loadConst_zero_extends :
    after (exec (.loadConst 0x8000 5) (st [(5, 0xFFFFFFFF)] [] [])) (fun t => t.reg 5 == 0x8000) = true := by
  decide

/-- V2: the last legal address. -/
theorem test_read_last_cell :
    after (exec (.read 4095 9) (st [(9, 123)] [(4095, 22)] [])) (fun t => t.reg 9 == 22 && t.pc == 1) = true := by
  decide

/-- V2: the first address past the memory. -/
theorem test_read_past_memory :
    after (exec (.read 4096 9) (st [(9, 123)] [] []))
      (fun t => t.reg 9 == 123 && t.pc == 0 && t.fault == some (.outOfBounds .memory 4096 0)) = true := by
  decide

/-- V3: all 32 bits are stored, and B is the data while C is the address. -/
theorem test_write_stores_whole_cell :
    after (exec (.write 1 2) (st [(1, 0xDEADBEEF), (2, 10)] [] []))
      (fun t => Memory.cell t.mem 10 == 0xDEADBEEF && t.mem.length == 1) = true := by decide

/-- V3: the address is not reduced, and the index is the register's value. -/
theorem test_write_past_memory :
    after (exec (.write 1 2) (st [(1, 5), (2, 0xFFFFFFFF)] [] []))
      (fun t => t.fault == some (.outOfBounds .memory 4294967295 0) && t.mem == []) = true := by decide

/-- V4: the sum wraps to cell 0. -/
theorem test_lt_wraps :
    after (exec (.lt 9 1 1) (st [(1, 0xFFFFFFFF)] [(0, 1), (9, 2)] []))
      (fun t => Memory.cell t.mem 0 == 1 && t.fault == none) = true := by decide

/-- V4, F3: the comparison is unsigned; the register-addressed cell is the left operand. -/
theorem test_lt_unsigned :
    after (exec (.lt 9 1 0) (st [(1, 10)] [(10, 0x7FFFFFFF), (9, 0x80000000)] []))
      (fun t => Memory.cell t.mem 10 == 1) = true := by decide

/-- P5's second decode step: the truncated last word. -/
theorem test_truncated_last_word :
    after (step { State.start [0x31, 0x06, 0x20, 0x00, 0x2F] with cur := 4, iq := [.loadConst 99 2] })
      (fun t => t.fault == some (.truncatedStream 4 3 1) && t.cur == 4 && t.phase == .faulted) = true := by
  decide

/-- V7: bounds of a snapshot, after S7. -/
theorem test_snapshot_clamps :
    (snapshot ((st [] [(10, 99)] []).halt) 9 12).map (·.cells) = some [(9, 0), (10, 99), (11, 0)] ∧
      (snapshot ((st [] [(10, 99)] []).halt) 4094 5000).map (·.cells) = some [(4094, 0), (4095, 0)] ∧
      (snapshot ((st [] [(10, 99)] []).halt) (-3) 2).map (·.cells) = some [(0, 0), (1, 0)] ∧
      (snapshot ((st [] [(10, 99)] []).halt) 12 10).map (·.cells) = some [] := by decide

/-- The constants of Config agree with the fields' positions in R57 to R60. -/
theorem test_widths_match_positions :
    Config.immBits = 19 - 4 + 1 ∧ Config.readAddrBits = 20 - 4 + 1 ∧ Config.ltAddrBits = 10 - 4 + 1 ∧
      Config.dispBits = 25 - 18 + 1 ∧ Config.regIdxBits = 26 - 20 + 1 ∧ Config.opcodeBits = 3 - 0 + 1 ∧
      2 ^ Config.regIdxBits = Config.nregs := by decide

/-! ## Witnesses: hypotheses that are met -/

/-- A run in its execute phase on the stream of one LOAD_CONST. -/
def oneLoad : State :=
  { State.start [0x31, 0x06, 0x20, 0x00] with cur := 4, iq := [.loadConst 99 2], phase := .execute }

theorem witness_NextRunStartsFresh :
    (st [] [] []).halt.phase = .halted ∧ ((st [] [] []).raise (.unknownOpcode 0 0)).phase = .faulted := by
  decide

theorem witness_LoadConstWritesImmediate : 127 < 128 ∧ 128 ≤ 128 := by decide

theorem witness_ReadCopiesCell : (4095 < 4096 ∧ 127 < 128) ∧ 4096 ≤ 4096 := by decide

theorem witness_WriteStoresRegister :
    127 < 128 ∧ 0 < 128 ∧ ((st [(0, 4095)] [] []).reg 0).toNat < 4096 ∧
      4096 ≤ ((st [(0, 4096)] [] []).reg 0).toNat := by decide

theorem witness_LtWritesComparison :
    127 < 128 ∧ 4095 < 4096 ∧ ltAddr (st [(127, 4000)] [] []) 127 95 < 4096 ∧
      4096 ≤ ltAddr (st [(127, 4000)] [] []) 127 96 := by decide

theorem witness_AliasedOperandsActAsOne :
    (9 < 4096 ∧ 1 < 128 ∧ ltAddr (st [(1, 0)] [] []) 1 9 = 9) ∧
      (5 < 128 ∧ ((st [(5, 4095)] [] []).reg 5).toNat < 4096 ∧
        4096 ≤ ((st [(5, 5000)] [] []).reg 5).toNat) := by decide

theorem witness_RegisterIndexPastBankAborts :
    128 ≤ 128 ∧ (4095 < 4096 ∧ 128 ≤ 128) ∧ (128 ≤ 128 ∧ 127 < 128) := by decide

theorem witness_LtDirectAddressPastMemoryAborts :
    0 < 128 ∧ ltAddr (st [] [] []) 0 255 < 4096 ∧ 4096 ≤ 4096 := by decide

theorem witness_RegistersWrittenByLoadConstAndReadOnly :
    ∃ t, exec (.read 0 127) (st [] [] []) = .next t := ⟨_, rfl⟩

theorem witness_MemoryWrittenAtStoreAddressOnly :
    (∃ t, exec (.lt 9 1 5) (st [] [] []) = .next t) ∧ storeAddr (st [] [] []) (.lt 9 1 5) ≠ some 6 :=
  ⟨⟨_, rfl⟩, by decide⟩

theorem witness_RaiseWritesOnlyReportAndPhase :
    (∃ t, step (st [] [] [.read 4096 0]) = .next t ∧ t.phase = .faulted) ∧
      (∃ t, step (State.start [0x00]) = .next t ∧ t.phase = .faulted) ∧
      (∃ t, step (State.start [0x00, 0x00, 0x00]) = .next t ∧ t.phase = .faulted) :=
  ⟨⟨_, rfl, rfl⟩, ⟨_, rfl, rfl⟩, ⟨_, rfl, rfl⟩⟩

theorem witness_ReportBelongsToItsPhase :
    (∃ t, step (st [] [] [.read 4096 0]) = .next t ∧ t.phase = .faulted) ∧
      (∃ t, step (State.start [0x00]) = .next t ∧ t.phase = .faulted) ∧
      (∃ t, step (State.start [0x00, 0x00, 0x00]) = .next t ∧ t.phase = .faulted) :=
  witness_RaiseWritesOnlyReportAndPhase

theorem witness_AbortIsPrecise :
    ∃ t, RunReaches [0x04, 0x00, 0x01, 0x00] 3 t ∧ t.fault = some (.outOfBounds .memory 4096 0) :=
  ⟨_, rfl, rfl⟩

theorem witness_DecodedInstructionRaisesExactlyWhen :
    WellFormed (.write 1 2) ∧ (st [(2, 4096)] [] []).phase = .execute ∧
      (∃ t, exec (.write 1 2) (st [(2, 4096)] [] []) = .next t) ∧
      4096 ≤ ((st [(2, 4096)] [] []).reg 2).toNat ∧ ¬ 4096 ≤ ((st [(2, 4095)] [] []).reg 2).toNat ∧
      WellFormed (.read 4096 0) ∧ WellFormed (.lt 0 1 1) ∧ 4096 ≤ ltAddr (st [(1, 4095)] [] []) 1 1 :=
  ⟨by decide, by decide, ⟨_, rfl⟩, by decide, by decide, by decide, by decide, by decide⟩

theorem witness_CheckedAccessesObeyBounds : 4095 < 4096 ∧ 4096 ≤ 4096 := by decide

theorem witness_CanonicalMemoriesThatReadAlikeAreEqual :
    Memory.wf [(0, 1), (4095, 2)] = true ∧ Memory.wf [(4096, 1)] = false ∧ Memory.wf [(3, 0)] = false ∧
      Memory.wf [(3, 1), (2, 1)] = false ∧
      ∀ a, Memory.cell [(0, 1), (4095, 2)] a = Memory.cell [(0, 1), (4095, 2)] a :=
  ⟨by decide, by decide, by decide, by decide, fun _ => rfl⟩

/-- A run at its start meets a word that begins with `b0`, with `left` bytes of the stream left. -/
abbrev Meets (bytes : List Byte) (b0 : Byte) (left : Nat) : Prop :=
  (State.start bytes).phase = .decode ∧ (State.start bytes).stream[(State.start bytes).cur]? = some b0 ∧
    (State.start bytes).stream.length - (State.start bytes).cur = left

/-- The byte `k` places after the cursor of a run at its start is `b`. -/
abbrev Holds (bytes : List Byte) (k : Nat) (b : Byte) : Prop :=
  (State.start bytes).stream[(State.start bytes).cur + k]? = some b

theorem witness_DecodeStepFollowsAlgorithm :
    ((State.start []).phase = .decode ∧ (State.start []).cur = (State.start []).stream.length) ∧
      (Meets [0x01, 0, 0] 0x01 3 ∧ 3 < wordLen 0x01) ∧
      (Meets [0x0E, 0, 0] 0x0E 3 ∧ wordLen 0x0E ≤ 3 ∧ ReservedNibble 0x0E) ∧
      (Meets [0xFF, 1, 2] 0xFF 3 ∧ Holds [0xFF, 1, 2] 1 1 ∧ Holds [0xFF, 1, 2] 2 2 ∧
        (0xFF : Byte).toNat % 16 = 15) ∧
      (Meets [0xF1, 1, 2, 3] 0xF1 4 ∧ Holds [0xF1, 1, 2, 3] 1 1 ∧ Holds [0xF1, 1, 2, 3] 2 2 ∧
        Holds [0xF1, 1, 2, 3] 3 3 ∧ (0xF1 : Byte).toNat % 16 = 1) ∧
      (Meets [0xF4, 1, 2, 3] 0xF4 4 ∧ Holds [0xF4, 1, 2, 3] 1 1 ∧ Holds [0xF4, 1, 2, 3] 2 2 ∧
        Holds [0xF4, 1, 2, 3] 3 3 ∧ (0xF4 : Byte).toNat % 16 = 4) ∧
      (Meets [0xF9, 1, 2, 3] 0xF9 4 ∧ Holds [0xF9, 1, 2, 3] 1 1 ∧ Holds [0xF9, 1, 2, 3] 2 2 ∧
        Holds [0xF9, 1, 2, 3] 3 3 ∧ (0xF9 : Byte).toNat % 16 = 9) := by decide

theorem witness_TruncatedStreamExactlyWhen :
    (State.start [0x2F, 0x18]).phase = .decode ∧ (State.start [0x2F, 0x18]).fault = none ∧
      (State.start [0x2F, 0x18]).stream[(State.start [0x2F, 0x18]).cur]? = some 0x2F ∧
      ∃ t, step (State.start [0x2F, 0x18]) = .next t ∧ t.fault = some (.truncatedStream 0 3 2) :=
  ⟨rfl, rfl, rfl, _, rfl, rfl⟩

theorem witness_UnknownOpcodeExactlyWhen :
    (State.start [0xA2, 0, 0]).phase = .decode ∧ (State.start [0xA2, 0, 0]).fault = none ∧
      (State.start [0xA2, 0, 0]).stream[(State.start [0xA2, 0, 0]).cur]? = some 0xA2 ∧
      ∃ t, step (State.start [0xA2, 0, 0]) = .next t ∧ t.fault = some (.unknownOpcode 0 2) :=
  ⟨rfl, rfl, rfl, _, rfl, rfl⟩

theorem witness_StepRunsDecodedInstruction :
    decodeFront ((State.start [0x2F, 0x18, 0x00]).stream.drop 0) = .word (.write 2 3) 3 ∧
      oneLoad.phase = .execute ∧ oneLoad.iq[oneLoad.pc]? = some (.loadConst 99 2) ∧
      (st [] [] []).phase = .execute ∧ (st [] [] []).pc = (st [] [] []).iq.length := by decide

theorem witness_EndedRunHasNoStep :
    (st [] [] []).halt.phase = .halted ∧ ((st [] [] []).raise (.unknownOpcode 0 0)).phase = .faulted := by
  decide

theorem witness_CountersMoveOnlyByCompletionAndDecode :
    (∃ t, step oneLoad = .next t ∧ t.pc = 1) ∧ ∃ t, step (State.start [0x2F, 0x18, 0x00]) = .next t ∧ t.cur = 3 :=
  ⟨⟨_, rfl, rfl⟩, ⟨_, rfl, rfl⟩⟩

theorem witness_PhasesTouchDisjointState :
    (oneLoad.phase = .execute ∧ ∃ t, step oneLoad = .next t) ∧
      ((State.start [0x00]).phase = .decode ∧ ∃ t, step (State.start [0x00]) = .next t) :=
  ⟨⟨rfl, _, rfl⟩, ⟨rfl, _, rfl⟩⟩

theorem witness_NoCellBeyondMemoryChanges : (∃ t, step oneLoad = .next t) ∧ 4096 ≤ 4096 :=
  ⟨⟨_, rfl⟩, by decide⟩

/-- WRITE, an instruction that stores elsewhere, READ. -/
def storeThenLoad : State := st [(1, 5), (2, 10)] [] [.write 1 2, .lt 9 3 7, .read 10 4]

theorem witness_ReadAfterWriteGivesValueWritten :
    ∃ t u, storeThenLoad.phase = .execute ∧ storeThenLoad.iq[storeThenLoad.pc]? = some (.write 1 2) ∧
      (storeThenLoad.reg 2).toNat = 10 ∧ step storeThenLoad = .next t ∧ runFor step 1 t = .next u ∧
      (∀ j v, j < 1 → runFor step j t = .next v → ¬ StoresTo v 10) ∧
      u.phase = .execute ∧ u.iq[u.pc]? = some (.read 10 4) := by
  refine ⟨_, _, rfl, rfl, by decide, rfl, rfl, fun j v hj hv => ?_, rfl, rfl⟩
  obtain rfl : j = 0 := by omega
  cases hv
  rintro ⟨-, i, hi, ha⟩
  cases hi
  revert ha
  decide

theorem witness_DecodeEncodeRoundTrip :
    WellFormed (.lt 127 127 255) ∧
      (⟨['l', 't'], none, 200, 300, 400⟩ : SourceRecord).instr = some (.lt 200 300 144) ∧
      (⟨['l', 't'], some 9, 200, 300, 400⟩ : SourceRecord).instr = some (.lt 200 300 144) ∧
      some 9 = some (Instr.lt 200 300 144).opcode := by decide

theorem witness_EncodedProgramDecodesToItself :
    (∀ i ∈ [Instr.read 131071 127, .write 127 127], WellFormed i) ∧
      (assemble [⟨['r', 'e', 'a', 'd'], none, 10, 4, 0⟩]).toOption = some [0xA4, 0x00, 0x80, 0x00] := by decide

theorem witness_UnknownNameAbortsAssembly :
    (⟨['a', 'd', 'd'], none, 0, 0, 0⟩ : SourceRecord) ∈ [(⟨['a', 'd', 'd'], none, 0, 0, 0⟩ : SourceRecord)] ∧
      (⟨['a', 'd', 'd'], none, 0, 0, 0⟩ : SourceRecord).instr = none := by decide

theorem witness_MnemonicsSelectInstructions :
    ['L', 'd', 'C'].map lowerChar = ['l', 'd', 'c'] ∧ ['R', 'e', 'a', 'd'].map lowerChar = ['r', 'e', 'a', 'd'] ∧
      ['W', 'R', 'I', 'T', 'E'].map lowerChar = ['w', 'r', 'i', 't', 'e'] ∧ ['<'].map lowerChar = ['<'] ∧
      '_' ∉ "ABCDEFGHIJKLMNOPQRSTUVWXYZ".toList ∧
      ['a', 'd', 'd'].map lowerChar = ['a', 'd', 'd'] ∧
      (⟨['l', 't'], some 8, 0, 0, 0⟩ : SourceRecord).instr = some (.lt 0 0 0) ∧
      8 ≠ (Instr.lt 0 0 0).opcode := by
  decide

theorem witness_EncodeDecodedWordClearsPad : decodeWord 0xFFFFFFF9 = some (.lt 127 127 255) := by decide

theorem witness_PadBitsAreZeroAndIgnored : decodeWord 0x01555F = some (.write 0x55 0x2A) := by decide

theorem witness_DecodedInstructionIsWellFormed :
    decodeFront [0xFF, 0xFF, 0xFF, 0x00] = .word (.write 127 127) 3 := by decide

theorem witness_PlacedWordRunsNext : WellFormed (.read 4095 127) := by decide

theorem oneLoad_RunInv : RunInv oneLoad where
  cur_le := by decide
  pc_le := by decide
  iq_len := by decide
  decode := nofun
  execute := fun _ => ⟨rfl, rfl⟩
  halted := nofun
  faulted := nofun

theorem witness_RunInvariantKeptByEveryStep : RunInv oneLoad ∧ ∃ t, step oneLoad = .next t :=
  ⟨oneLoad_RunInv, _, rfl⟩

theorem witness_CanonicalMemoryKeptByEveryStep :
    MemInv (st [(1, 5), (2, 10)] [(4095, 1)] [.write 1 2]) ∧
      ∃ t, step (st [(1, 5), (2, 10)] [(4095, 1)] [.write 1 2]) = .next t := ⟨by decide, _, rfl⟩

theorem witness_ListIsDecodeOfConsumedPrefix :
    PrefixInv { State.start [0x31, 0x06, 0x20, 0x00, 0x2F, 0x18, 0x00] with cur := 4, iq := [.loadConst 99 2] } ∧
      ∃ t, step { State.start [0x31, 0x06, 0x20, 0x00, 0x2F, 0x18, 0x00] with
        cur := 4, iq := [.loadConst 99 2] } = .next t ∧ t.cur = 7 :=
  ⟨⟨by decide, by decide⟩, _, rfl, rfl⟩

theorem witness_RegisterFaultNeverFromDecoder : DecodedInv oneLoad ∧ ∃ t, step oneLoad = .next t :=
  ⟨⟨by decide, nofun⟩, _, rfl⟩

theorem witness_SmallCellsKeptByEveryStep : SmallInv oneLoad ∧ ∃ t, step oneLoad = .next t := by
  refine ⟨⟨fun j => ?_, fun a => ?_⟩, _, rfl⟩
  · have : oneLoad.reg j = 0 := State.reg_start [] j
    rw [this]
    decide
  · show (0 : Word).toNat ≤ 65535
    decide

theorem witness_UntouchedUntilDecodedKeptByEveryStep :
    (RunInv (State.start [0x2F, 0x18, 0x00]) ∧ UntouchedInv (State.start [0x2F, 0x18, 0x00])) ∧
      ∃ t, step (State.start [0x2F, 0x18, 0x00]) = .next t ∧ t.phase = .decode :=
  ⟨⟨{ cur_le := by decide, pc_le := by decide, iq_len := by decide, decode := fun _ => ⟨rfl, rfl⟩,
      execute := nofun, halted := nofun, faulted := nofun },
    fun _ => ⟨State.reg_start _, fun _ => rfl⟩⟩, _, rfl, rfl⟩

theorem witness_EveryStepLowersWorkLeft : ∃ t, step oneLoad = .next t := ⟨_, rfl⟩

theorem witness_ReportIsWrittenAtMostOnce : RunInv oneLoad ∧ ∃ t, step oneLoad = .next t :=
  ⟨oneLoad_RunInv, _, rfl⟩

theorem witness_StepEnabledUntilRunEnds : RunInv oneLoad ∧ oneLoad.phase = .execute :=
  ⟨oneLoad_RunInv, rfl⟩

theorem witness_NothingExecutesBeforeStreamIsDecoded :
    (∃ t, RunReaches [0x31, 0x06, 0x20, 0x00, 0x2F] 1 t ∧ t.phase = .decode) ∧
      ∃ t f, RunReaches [0x31, 0x06, 0x20, 0x00, 0x2F] 2 t ∧ t.fault = some f ∧ f.decodePhase = true :=
  ⟨⟨_, rfl, rfl⟩, _, _, rfl, rfl, rfl⟩

theorem witness_RunsOfOneStreamEndAlike : ∃ t, RunReaches [] 2 t ∧ t.phase = .halted := ⟨_, rfl, rfl⟩

theorem witness_EndedRunSaysHowItEnded :
    (∃ t, RunReaches [0x0F, 0x00, 0x00] 4 t ∧ t.phase = .halted) ∧
      ∃ t, RunReaches [0x00] 1 t ∧ t.phase = .faulted := ⟨⟨_, rfl, rfl⟩, ⟨_, rfl, rfl⟩⟩

theorem witness_HaltedRunStepCount :
    ∃ t, RunReaches [0x0F, 0x00, 0x00] 4 t ∧ t.phase = .halted ∧ t.iq.length = 1 := ⟨_, rfl, rfl, rfl⟩

theorem witness_InterleavedMachineAgreesOnCleanStreams :
    decodeStream [0x31, 0x06, 0x20, 0x00] = some [.loadConst 99 2] ∧
      (∃ t, runFor interleavedStep 1 (State.start [0x31, 0x06, 0x20, 0x00]) = .next t ∧ t.pc = 1) ∧
      ∃ u, RunReaches [0x31, 0x06, 0x20, 0x00] (1 + 1 + 2) u ∧ u.phase = .halted :=
  ⟨by decide, ⟨_, rfl, rfl⟩, _, rfl, rfl⟩

theorem witness_SnapshotListsClampedRange :
    (st [] [] []).halt.phase = .halted ∧ ((st [] [] []).raise (.unknownOpcode 0 0)).phase = .faulted := by
  decide

theorem witness_HostHasNoMoveDuringRun : (State.start []).phase = .decode ∧ oneLoad.phase = .execute := by decide

theorem witness_HostReadsStatusAndRegistersAfterRun : (st [] [] []).halt.phase = .halted ∧ 127 < 128 := by
  decide

end Sys2Proof.Tests
end

/-! # Proofs: the state and its invariants (spec/10_state.md)

First the facts about the decoder, then what `exec` and `step` do to the fields the invariants speak of, then one
lemma per invariant and operation; the obligations are assembled from these. -/

namespace Sys2Proof

/-! ## Facts about the decoder -/

theorem bits_low_nibble (v : Nat) : bits v 3 0 = v % 16 := by
  simp [bits_eq]

/-- The opcode nibble of a word is the nibble of its first byte (R51). -/
theorem bits_le_take_ilen (b0 : Byte) (rest : List Byte) (a : Nat) :
    bits (le ((b0 :: rest).take (ilen a))) 3 0 = opcodeOf b0 := by
  obtain ⟨m, hm⟩ : ∃ m, ilen a = m + 1 := by
    obtain h | h := ilen_cases a <;> exact ⟨_, h⟩
  rw [hm, List.take_succ_cons, opcodeOf, bits_low_nibble, bits_low_nibble, le]
  omega

theorem decodeWord_eq_none {w : Nat} (h : decodeWord w = none) : bits w 3 0 ∉ [1, 4, 9, 15] := by
  unfold decodeWord at h
  iterate 4
    split at h
    · cases h
  simp_all

/-- Every field of a decoded word fits its declared width, and the word carries the opcode. -/
theorem decodeWord_some {w : Nat} {i : Instr} (h : decodeWord w = some i) :
    WellFormed i ∧ i.opcode = bits w 3 0 := by
  unfold decodeWord at h
  split at h
  · next ho =>
    cases h
    exact ⟨by simpa [WellFormed, Instr.wf] using bits_lt w 26 20, ho.symm⟩
  split at h
  · next ho =>
    cases h
    exact ⟨by simpa [WellFormed, Instr.wf] using ⟨bits_lt w 20 4, bits_lt w 27 21⟩, ho.symm⟩
  split at h
  · next ho =>
    cases h
    exact ⟨by simpa [WellFormed, Instr.wf] using ⟨bits_lt w 10 4, bits_lt w 17 11⟩, ho.symm⟩
  split at h
  · next ho =>
    cases h
    exact ⟨by simpa [WellFormed, Instr.wf] using ⟨bits_lt w 10 4, bits_lt w 17 11⟩, ho.symm⟩
  · cases h

/-- What the decoder takes off the front: a well-formed instruction in as many bytes as its opcode asks for. -/
theorem decodeFront_word_wf {bs : List Byte} {i : Instr} {n : Nat} (h : decodeFront bs = .word i n) :
    WellFormed i ∧ n = ilen i.opcode ∧ n ≤ bs.length := by
  obtain ⟨b0, rest, rfl, rfl, hn, hd⟩ := decodeFront_word.1 h
  obtain ⟨hwf, hop⟩ := decodeWord_some hd
  exact ⟨hwf, by rw [hop, bits_le_take_ilen], hn⟩

theorem decodeFront_word_length {bs : List Byte} {i : Instr} {n : Nat} (h : decodeFront bs = .word i n) :
    3 ≤ n ∧ n ≤ bs.length := by
  obtain ⟨-, hn, hle⟩ := decodeFront_word_wf h
  have := ilen_cases i.opcode
  omega

/-- An unknown opcode is a reserved nibble (R64), found with a whole word of three bytes present. -/
theorem decodeFront_unknownOpcode_reserved {bs : List Byte} {a : Nat}
    (h : decodeFront bs = .unknownOpcode a) : a < 16 ∧ a ∉ [1, 4, 9, 15] ∧ 3 ≤ bs.length := by
  obtain ⟨b0, rest, rfl, rfl, hle, hd⟩ := decodeFront_unknownOpcode.1 h
  have hres := decodeWord_eq_none hd
  rw [bits_le_take_ilen] at hres
  have := ilen_cases (opcodeOf b0)
  exact ⟨opcodeOf_lt b0, hres, by omega⟩

theorem decodeFront_truncated_length {bs : List Byte} {need have_ : Nat}
    (h : decodeFront bs = .truncated need have_) :
    have_ = bs.length ∧ 0 < have_ ∧ have_ < need ∧ (need = 3 ∨ need = 4) := by
  obtain ⟨b0, rest, rfl, rfl, rfl, hlt⟩ := decodeFront_truncated.1 h
  exact ⟨rfl, Nat.succ_pos _, hlt, ilen_cases _⟩

/-- The word at the front depends on its own bytes only. -/
theorem decodeFront_word_of_take_eq {bs bs' : List Byte} {i : Instr} {n : Nat}
    (h : decodeFront bs = .word i n) (ht : bs'.take n = bs.take n) : decodeFront bs' = .word i n := by
  have hpos := (decodeFront_word_length h).1
  obtain ⟨b0, rest, rfl, hn, hle, hd⟩ := decodeFront_word.1 h
  have hle' : n ≤ bs'.length := by
    have := congrArg List.length ht
    simp only [List.length_take] at this
    omega
  obtain ⟨m, rfl⟩ : ∃ m, n = m + 1 := ⟨n - 1, by omega⟩
  cases bs' with
  | nil => simp at hle'
  | cons b0' rest' =>
    obtain ⟨rfl, -⟩ : b0' = b0 ∧ rest'.take m = rest.take m := by simpa using ht
    exact decodeFront_word.2 ⟨b0', rest', rfl, hn, hle', ht ▸ hd⟩

theorem decodeFront_append_word {bs : List Byte} {i : Instr} {n : Nat} (h : decodeFront bs = .word i n)
    (rest : List Byte) : decodeFront (bs ++ rest) = .word i n :=
  decodeFront_word_of_take_eq h (List.take_append_of_le_length (decodeFront_word_length h).2)

theorem decodeFront_take_word {bs : List Byte} {i : Instr} {n : Nat} (h : decodeFront bs = .word i n) :
    decodeFront (bs.take n) = .word i n :=
  decodeFront_word_of_take_eq h (by rw [List.take_take, Nat.min_self])

theorem decodeStreamWith_nil (fuel : Nat) : decodeStreamWith fuel [] = some [] := by
  cases fuel <;> rfl

/-- A stream of nothing but the word `i`. -/
theorem decodeStreamWith_single {bs : List Byte} {i : Instr} (h : decodeFront bs = .word i bs.length)
    (fuel : Nat) : decodeStreamWith (fuel + 1) bs = some [i] := by
  simp [decodeStreamWith, h, decodeStreamWith_nil]

/-- The first word of a stream that decodes, and what the rest decodes to. -/
theorem decodeStreamWith_succ {fuel : Nat} {bs : List Byte} {is : List Instr}
    (h : decodeStreamWith (fuel + 1) bs = some is) :
    (bs = [] ∧ is = []) ∨
      ∃ i n is', decodeFront bs = .word i n ∧ decodeStreamWith fuel (bs.drop n) = some is'
        ∧ is = i :: is' := by
  simp only [decodeStreamWith] at h
  split at h
  · next hf => exact .inl ⟨decodeFront_endOfStream.1 hf, by simpa using h.symm⟩
  · cases h
  · cases h
  · next i n hf =>
    obtain ⟨is', his, rfl⟩ := Option.map_eq_some_iff.1 h
    exact .inr ⟨i, n, is', hf, his, rfl⟩

/-- One more word after a stream that decodes, given fuel for one more word. -/
theorem decodeStreamWith_append_word {bs w : List Byte} {is : List Instr} {i : Instr} {fuel fuel' : Nat}
    (hbs : decodeStreamWith fuel bs = some is) (hw : decodeFront w = .word i w.length)
    (hfuel : fuel < fuel') : decodeStreamWith fuel' (bs ++ w) = some (is ++ [i]) := by
  obtain ⟨k, rfl⟩ : ∃ k, fuel' = k + 1 := ⟨fuel' - 1, by omega⟩
  induction fuel generalizing bs is k with
  | zero =>
    obtain ⟨rfl, rfl⟩ : bs = [] ∧ [] = is := by simpa [decodeStreamWith] using hbs
    exact decodeStreamWith_single hw k
  | succ fuel ih =>
    obtain ⟨rfl, rfl⟩ | ⟨j, n, is', hj, his', rfl⟩ := decodeStreamWith_succ hbs
    · exact decodeStreamWith_single hw k
    · obtain ⟨k, rfl⟩ : ∃ k', k = k' + 1 := ⟨k - 1, by omega⟩
      have hdrop : (bs ++ w).drop n = bs.drop n ++ w :=
        List.drop_append_of_le_length (decodeFront_word_length hj).2
      rw [decodeStreamWith, decodeFront_append_word hj]
      simp only [hdrop, ih his' k (by omega), Option.map_some, List.cons_append]

/-- Decoding goes word by word: a word after a stream that decodes is appended to its list. -/
theorem decodeStream_append_word {bs w : List Byte} {is : List Instr} {i : Instr}
    (hbs : decodeStream bs = some is) (hw : decodeFront w = .word i w.length) :
    decodeStream (bs ++ w) = some (is ++ [i]) := by
  have hpos := (decodeFront_word_length hw).1
  exact decodeStreamWith_append_word hbs hw (by simp only [List.length_append]; omega)

end Sys2Proof

namespace Sys2Proof.Machine

/-! ## What an instruction and a step can do -/

theorem State.length_remaining (s : State) : s.remaining.length = s.stream.length - s.cur :=
  List.length_drop

/-- The record is the report of an access at `pc` outside its array (R143). -/
def OutsideAt (pc : Nat) (f : FaultRecord) : Prop :=
  ∃ kind index, f = .outOfBounds kind index pc ∧ (kind = .register → 128 ≤ index)
    ∧ (kind = .memory → 4096 ≤ index)

theorem outsideAt_register {pc c : Nat} (h : ¬ c < Config.nregs) :
    OutsideAt pc (.outOfBounds .register c pc) :=
  ⟨_, _, rfl, fun _ => Nat.not_lt.1 h, nofun⟩

theorem outsideAt_memory {pc a : Nat} (h : ¬ a < Config.memsize) :
    OutsideAt pc (.outOfBounds .memory a pc) :=
  ⟨_, _, rfl, nofun, fun _ => Nat.not_lt.1 h⟩

/-- An instruction completes, or raises an index outside its array. -/
theorem exec_completed_or_raised {i : Instr} {s t : State} (h : exec i s = .next t) :
    Completed s t ∨ ∃ f, OutsideAt s.pc f ∧ t = s.raise f := by
  obtain ⟨_, _, -, he⟩ | ⟨_, _, -, he⟩ | ⟨_, hc, he⟩ | ⟨_, ha, he⟩ := exec_cases h <;> cases he
  · exact .inl ⟨rfl, rfl, rfl, rfl, rfl, rfl⟩
  · exact .inl ⟨rfl, rfl, rfl, rfl, rfl, rfl⟩
  · exact .inr ⟨_, outsideAt_register hc, rfl⟩
  · exact .inr ⟨_, outsideAt_memory ha, rfl⟩

/-- An instruction leaves the stream, the cursor and the list alone, whatever its outcome. -/
theorem exec_frame {i : Instr} {s t : State} (h : exec i s = .next t) :
    t.stream = s.stream ∧ t.cur = s.cur ∧ t.iq = s.iq := by
  obtain hc | ⟨f, -, rfl⟩ := exec_completed_or_raised h
  · exact ⟨hc.stream, hc.cur, hc.iq⟩
  · exact ⟨rfl, rfl, rfl⟩

theorem exec_next (i : Instr) (s : State) : ∃ t, exec i s = .next t := by
  obtain ⟨_, _, -, he⟩ | ⟨_, _, -, he⟩ | ⟨_, -, he⟩ | ⟨_, -, he⟩ := exec_cases (i := i) (s := s) rfl
  all_goals exact ⟨_, he⟩

theorem decodeStep_next {s : State} (h : s.cur ≤ s.stream.length) : ∃ t, decodeStep s = .next t := by
  rw [decodeStep, if_neg (Nat.not_lt.2 h)]
  cases decodeFront s.remaining <;> exact ⟨_, rfl⟩

theorem executeStep_next {s : State} (h : s.pc ≤ s.iq.length) : ∃ t, executeStep s = .next t := by
  rw [executeStep, if_neg (Nat.not_lt.2 h)]
  cases s.iq[s.pc]? with
  | none => exact ⟨_, rfl⟩
  | some i => exact exec_next i s

theorem step_of_decode {s : State} (h : s.phase = .decode) : step s = decodeStep s := by
  rw [step, h]

theorem step_of_execute {s : State} (h : s.phase = .execute) : step s = executeStep s := by
  rw [step, h]

/-! ## The run invariant -/

/-- A raise changes none of the fields a report speaks of. -/
theorem FaultRecord.fits_raise {s : State} {f g : FaultRecord} (h : f.fits s) : f.fits (s.raise g) := by
  cases f <;> exact h

theorem OutsideAt.fits {s : State} {f : FaultRecord} (h : OutsideAt s.pc f)
    (hpc : s.pc < s.iq.length) (hcur : s.cur = s.stream.length) : f.fits s := by
  obtain ⟨kind, index, rfl, hreg, hmem⟩ := h
  exact ⟨rfl, hpc, hcur, hreg, hmem⟩

theorem RunInv.raise {s : State} {f : FaultRecord} (h : RunInv s) (hf : f.fits s) :
    RunInv (s.raise f) where
  cur_le := h.cur_le
  pc_le := h.pc_le
  iq_len := h.iq_len
  decode := nofun
  execute := nofun
  halted := nofun
  faulted _ := ⟨f, rfl, FaultRecord.fits_raise hf⟩

theorem RunInv.enterExecute {s : State} (h : RunInv s) (hcur : s.cur = s.stream.length)
    (hf : s.fault = none) : RunInv s.enterExecute where
  cur_le := h.cur_le
  pc_le := h.pc_le
  iq_len := h.iq_len
  decode := nofun
  execute _ := ⟨hcur, hf⟩
  halted := nofun
  faulted := nofun

theorem RunInv.halt {s : State} (h : RunInv s) (hcur : s.cur = s.stream.length)
    (hpc : s.pc = s.iq.length) (hf : s.fault = none) : RunInv s.halt where
  cur_le := h.cur_le
  pc_le := h.pc_le
  iq_len := h.iq_len
  decode := nofun
  execute := nofun
  halted _ := ⟨hcur, hpc, hf⟩
  faulted := nofun

theorem RunInv.appendWord {s : State} {i : Instr} {n : Nat} (h : RunInv s) (hp : s.phase = .decode)
    (hn : 3 ≤ n) (hle : s.cur + n ≤ s.stream.length) : RunInv (s.appendWord i n) where
  cur_le := hle
  pc_le := by simp [(h.decode hp).1]
  iq_len := by
    have := h.iq_len
    simp only [State.appendWord_iq, State.appendWord_cur, List.length_append, List.length_singleton]
    omega
  decode _ := h.decode hp
  execute hp' := by simp [hp] at hp'
  halted hp' := by simp [hp] at hp'
  faulted hp' := by simp [hp] at hp'

theorem RunInv.completed {s t : State} (h : RunInv s) (hp : s.phase = .execute)
    (hpc : s.pc < s.iq.length) (hc : Completed s t) : RunInv t where
  cur_le := by rw [hc.cur, hc.stream]; exact h.cur_le
  pc_le := by rw [hc.pc, hc.iq]; exact hpc
  iq_len := by rw [hc.iq, hc.cur]; exact h.iq_len
  decode hp' := by simp [hc.phase, hp] at hp'
  execute _ := by rw [hc.cur, hc.stream, hc.fault]; exact h.execute hp
  halted hp' := by simp [hc.phase, hp] at hp'
  faulted hp' := by simp [hc.phase, hp] at hp'

theorem RunInv.decodeStep {s t : State} (h : RunInv s) (hp : s.phase = .decode)
    (hs : decodeStep s = .next t) : RunInv t := by
  have hlen := s.length_remaining
  obtain ⟨hpc, hf⟩ := h.decode hp
  obtain ⟨hcur, ⟨hr, rfl⟩ | ⟨need, have_, hr, rfl⟩ | ⟨a, hr, rfl⟩ | ⟨i, n, hr, rfl⟩⟩ :=
    decodeStep_cases hs
  · rw [hr, List.length_nil] at hlen
    exact h.enterExecute (by omega) hf
  · obtain ⟨hhave, hpos, hlt, hneed⟩ := decodeFront_truncated_length hr
    exact h.raise ⟨rfl, hpc, hhave.trans hlen, hpos, hlt, hneed⟩
  · obtain ⟨ha, hres, hle⟩ := decodeFront_unknownOpcode_reserved hr
    exact h.raise ⟨rfl, hpc, by omega, ha, hres⟩
  · obtain ⟨hn, hle⟩ := decodeFront_word_length hr
    exact h.appendWord hp hn (by omega)

theorem RunInv.executeStep {s t : State} (h : RunInv s) (hp : s.phase = .execute)
    (hs : executeStep s = .next t) : RunInv t := by
  obtain ⟨hcur, hf⟩ := h.execute hp
  obtain ⟨hpc, rfl⟩ | ⟨i, hpc, -, he⟩ := executeStep_cases hs
  · exact h.halt hcur hpc hf
  · obtain hc | ⟨f, hout, rfl⟩ := exec_completed_or_raised he
    · exact h.completed hp hpc hc
    · exact h.raise (hout.fits hpc hcur)

theorem RunInv.step {s t : State} (h : RunInv s) (hs : step s = .next t) : RunInv t := by
  obtain ⟨hp, hd⟩ | ⟨hp, he⟩ := step_cases hs
  · exact h.decodeStep hp hd
  · exact h.executeStep hp he

theorem RunInv.fault_iff {s : State} (h : RunInv s) : (∃ f, s.fault = some f) ↔ s.phase = .faulted := by
  constructor
  · rintro ⟨f, hf⟩
    cases hp : s.phase with
    | decode => simp [(h.decode hp).2] at hf
    | execute => simp [(h.execute hp).2] at hf
    | halted => simp [(h.halted hp).2.2] at hf
    | faulted => rfl
  · intro hp
    obtain ⟨f, hf, -⟩ := h.faulted hp
    exact ⟨f, hf⟩

/-- Settles O39: each operation a step can make keeps the invariant. -/
theorem runInvariantKeptByEveryStep : Obligations.RunInvariantKeptByEveryStep :=
  fun _ _ h hs => h.step hs

/-! ## The list as the decode of the consumed bytes -/

theorem PrefixInv.appendWord {s : State} {i : Instr} {n : Nat} (h : PrefixInv s)
    (hw : decodeFront s.remaining = .word i n) : PrefixInv (s.appendWord i n) := by
  obtain ⟨hcur, hdec⟩ := h
  have hle := (decodeFront_word_length hw).2
  have hlen := s.length_remaining
  refine ⟨by simp only [State.appendWord_cur, State.appendWord_stream]; omega, ?_⟩
  have hsplit : s.stream.take (s.cur + n) = s.stream.take s.cur ++ s.remaining.take n := List.take_add
  rw [State.appendWord_stream, State.appendWord_cur, State.appendWord_iq, hsplit]
  refine decodeStream_append_word hdec ?_
  rw [List.length_take, Nat.min_eq_left hle]
  exact decodeFront_take_word hw

theorem PrefixInv.exec {i : Instr} {s t : State} (h : PrefixInv s) (he : exec i s = .next t) :
    PrefixInv t := by
  obtain ⟨hstream, hcur, hiq⟩ := exec_frame he
  rwa [PrefixInv, hstream, hcur, hiq]

/-- Settles O41: a decode step appends the word it takes to both sides, and no other step touches either. -/
theorem listIsDecodeOfConsumedPrefix : Obligations.ListIsDecodeOfConsumedPrefix := by
  intro s t h hs
  obtain ⟨-, hd⟩ | ⟨-, he⟩ := step_cases hs
  · obtain ⟨-, ⟨-, rfl⟩ | ⟨_, _, -, rfl⟩ | ⟨_, -, rfl⟩ | ⟨i, n, hw, rfl⟩⟩ := decodeStep_cases hd
    · exact h
    · exact h
    · exact h
    · exact h.appendWord hw
  · obtain ⟨-, rfl⟩ | ⟨i, -, -, hi⟩ := executeStep_cases he
    · exact h
    · exact h.exec hi

/-! ## Decoded records -/

/-- From a well-formed record the report is left alone or names a memory address: every register index is inside
the bank. -/
theorem exec_fault_of_wf {i : Instr} {s t : State} (hi : WellFormed i) (h : exec i s = .next t) :
    t.fault = s.fault ∨ ∃ a, t.fault = some (.outOfBounds .memory a s.pc) := by
  cases i with
  | loadConst b c =>
    have hc : c < Config.nregs := by simpa [WellFormed, Instr.wf] using hi
    obtain ⟨-, he⟩ | ⟨hn, -⟩ := execLoadConst_cases h
    · cases he
      exact .inl rfl
    · exact absurd hc hn
  | read b c =>
    obtain ⟨-, hc⟩ : b < 131072 ∧ c < Config.nregs := by simpa [WellFormed, Instr.wf] using hi
    obtain ⟨-, -, he⟩ | ⟨-, he⟩ | ⟨-, hn, -⟩ := execRead_cases h
    · cases he
      exact .inl rfl
    · cases he
      exact .inr ⟨_, rfl⟩
    · exact absurd hc hn
  | write b c =>
    obtain ⟨hb, hc⟩ : b < Config.nregs ∧ c < Config.nregs := by simpa [WellFormed, Instr.wf] using hi
    obtain ⟨-, -, -, he⟩ | ⟨hn, -⟩ | ⟨-, hn, -⟩ | ⟨-, -, -, he⟩ := execWrite_cases h
    · cases he
      exact .inl rfl
    · exact absurd hc hn
    · exact absurd hb hn
    · cases he
      exact .inr ⟨_, rfl⟩
  | lt b c d =>
    obtain ⟨-, hc⟩ : b < 128 ∧ c < Config.nregs := by simpa [WellFormed, Instr.wf] using hi
    obtain ⟨-, -, -, he⟩ | ⟨hn, -⟩ | ⟨-, -, he⟩ | ⟨-, -, -, he⟩ := execLt_cases rfl h
    · cases he
      exact .inl rfl
    · exact absurd hc hn
    · cases he
      exact .inr ⟨_, rfl⟩
    · cases he
      exact .inr ⟨_, rfl⟩

theorem DecodedInv.raise {s : State} {f : FaultRecord} (h : DecodedInv s)
    (hf : ∀ index at_, f ≠ .outOfBounds .register index at_) : DecodedInv (s.raise f) :=
  ⟨h.1, fun index at_ he => hf index at_ (Option.some.inj he)⟩

theorem DecodedInv.appendWord {s : State} {i : Instr} {n : Nat} (h : DecodedInv s) (hi : WellFormed i) :
    DecodedInv (s.appendWord i n) := by
  refine ⟨fun j hj => ?_, h.2⟩
  obtain hj | rfl : j ∈ s.iq ∨ j = i := by simpa using hj
  · exact h.1 j hj
  · exact hi

theorem DecodedInv.exec {i : Instr} {s t : State} (h : DecodedInv s) (hi : i ∈ s.iq)
    (he : exec i s = .next t) : DecodedInv t := by
  obtain ⟨hwf, hreport⟩ := h
  obtain ⟨-, -, hiq⟩ := exec_frame he
  refine ⟨hiq ▸ hwf, fun index at_ hf => ?_⟩
  obtain hs | ⟨a, ha⟩ := exec_fault_of_wf (hwf i hi) he
  · exact hreport index at_ (hs ▸ hf)
  · simp [ha] at hf

/-- Settles O42: only well-formed records are appended, and a well-formed record raises memory addresses only. -/
theorem registerFaultNeverFromDecoder : Obligations.RegisterFaultNeverFromDecoder := by
  intro s t h hs
  obtain ⟨-, hd⟩ | ⟨-, he⟩ := step_cases hs
  · obtain ⟨-, ⟨-, rfl⟩ | ⟨_, _, -, rfl⟩ | ⟨_, -, rfl⟩ | ⟨i, n, hw, rfl⟩⟩ := decodeStep_cases hd
    · exact h
    · exact h.raise nofun
    · exact h.raise nofun
    · exact h.appendWord (decodeFront_word_wf hw).1
  · obtain ⟨-, rfl⟩ | ⟨i, -, hi, hx⟩ := executeStep_cases he
    · exact h
    · exact h.exec (List.mem_of_getElem? hi) hx

/-! ## Small cells -/

theorem SmallInv.setReg {s : State} {v : Word} (h : SmallInv s) (hv : v.toNat ≤ 65535) (c : Nat) :
    SmallInv (s.setReg c v) := by
  refine ⟨fun j => ?_, h.2⟩
  rw [State.reg_setReg]
  split
  · exact hv
  · exact h.1 j

theorem SmallInv.setCell {s : State} {v : Word} (h : SmallInv s) (hv : v.toNat ≤ 65535) (a : Nat) :
    SmallInv (s.setCell a v) := by
  refine ⟨h.1, fun a' => ?_⟩
  rw [State.setCell_mem, Memory.cell_set]
  split
  · exact hv
  · exact h.2 a'

theorem SmallInv.advancePc {s : State} (h : SmallInv s) : SmallInv s.advancePc := h

theorem SmallInv.raise {s : State} (h : SmallInv s) (f : FaultRecord) : SmallInv (s.raise f) := h

theorem zext32_imm_le (b : BitVec Config.immBits) : (zext32 b).toNat ≤ 65535 := by
  rw [zext32_toNat b (by decide)]
  exact Nat.le_of_lt_succ b.isLt

theorem ltFlag_le (a b : Word) : (ltFlag a b).toNat ≤ 65535 := by
  obtain ⟨-, h⟩ | ⟨-, h⟩ := ltFlag_cases a b <;> rw [h] <;> decide

/-- Every value an instruction writes is an immediate, a copy of a cell, or LT's 0 or 1. -/
theorem SmallInv.exec {i : Instr} {s t : State} (h : SmallInv s) (he : exec i s = .next t) :
    SmallInv t := by
  cases i with
  | loadConst b c =>
    obtain ⟨-, he⟩ | ⟨-, he⟩ := execLoadConst_cases he <;> cases he
    · exact (h.setReg (zext32_imm_le b) c).advancePc
    · exact h.raise _
  | read b c =>
    obtain ⟨-, -, he⟩ | ⟨-, he⟩ | ⟨-, -, he⟩ := execRead_cases he <;> cases he
    · exact (h.setReg (h.2 b) c).advancePc
    · exact h.raise _
    · exact h.raise _
  | write b c =>
    obtain ⟨-, -, -, he⟩ | ⟨-, he⟩ | ⟨-, -, he⟩ | ⟨-, -, -, he⟩ := execWrite_cases he <;> cases he
    · exact (h.setCell (h.1 b) _).advancePc
    · exact h.raise _
    · exact h.raise _
    · exact h.raise _
  | lt b c d =>
    obtain ⟨-, -, -, he⟩ | ⟨-, he⟩ | ⟨-, -, he⟩ | ⟨-, -, -, he⟩ := execLt_cases rfl he <;> cases he
    · exact (h.setCell (ltFlag_le _ _) _).advancePc
    · exact h.raise _
    · exact h.raise _
    · exact h.raise _

/-- Settles O43: a decode step writes no cell, and an instruction writes small values only. -/
theorem smallCellsKeptByEveryStep : Obligations.SmallCellsKeptByEveryStep := by
  intro s t h hs
  obtain ⟨-, hd⟩ | ⟨-, he⟩ := step_cases hs
  · obtain ⟨-, ⟨-, rfl⟩ | ⟨_, _, -, rfl⟩ | ⟨_, -, rfl⟩ | ⟨_, _, -, rfl⟩⟩ := decodeStep_cases hd <;>
      exact h
  · obtain ⟨-, rfl⟩ | ⟨i, -, -, hx⟩ := executeStep_cases he
    · exact h
    · exact h.exec hx

/-! ## Registers, reports and enabled steps -/

theorem State.reg_setReg_of_ne (s : State) (v : Word) {c j : Nat} (h : j ≠ c) :
    (s.setReg c v).reg j = s.reg j := by
  rw [State.reg_setReg, if_neg fun hj => h hj.1]

/-- Settles O11, case by case of each instruction's own outcomes. -/
theorem registersWrittenByLoadConstAndReadOnly : Obligations.RegistersWrittenByLoadConstAndReadOnly := by
  intro i s t h
  cases i with
  | loadConst b c =>
    intro j hj
    obtain ⟨-, he⟩ | ⟨-, he⟩ := execLoadConst_cases h <;> cases he
    · exact s.reg_setReg_of_ne _ hj
    · rfl
  | read b c =>
    intro j hj
    obtain ⟨-, -, he⟩ | ⟨-, he⟩ | ⟨-, -, he⟩ := execRead_cases h <;> cases he
    · exact s.reg_setReg_of_ne _ hj
    · rfl
    · rfl
  | write b c =>
    intro j
    obtain ⟨-, -, -, he⟩ | ⟨-, he⟩ | ⟨-, -, he⟩ | ⟨-, -, -, he⟩ := execWrite_cases h <;> cases he <;> rfl
  | lt b c d =>
    intro j
    obtain ⟨-, -, -, he⟩ | ⟨-, he⟩ | ⟨-, -, he⟩ | ⟨-, -, -, he⟩ := execLt_cases rfl h <;> cases he <;> rfl

/-- Settles O14: of the outcomes of a step, only a raise ends in phase Faulted. -/
theorem reportBelongsToItsPhase : Obligations.ReportBelongsToItsPhase := by
  intro s t hs ht
  obtain ⟨hp, hd⟩ | ⟨hp, he⟩ := step_cases hs
  · obtain ⟨-, ⟨-, rfl⟩ | ⟨need, have_, -, rfl⟩ | ⟨a, -, rfl⟩ | ⟨_, _, -, rfl⟩⟩ := decodeStep_cases hd
    · cases ht
    · exact ⟨_, rfl, .inl ⟨hp, .inr ⟨need, have_, rfl⟩⟩⟩
    · exact ⟨_, rfl, .inl ⟨hp, .inl ⟨a, rfl⟩⟩⟩
    · simp [hp] at ht
  · obtain ⟨-, rfl⟩ | ⟨i, -, -, hx⟩ := executeStep_cases he
    · cases ht
    · obtain hc | ⟨f, hout, rfl⟩ := exec_completed_or_raised hx
      · simp [hc.phase, hp] at ht
      · exact ⟨f, rfl, .inr ⟨hp, hout⟩⟩

/-- Settles O36: the decoder's fields fit, and its length rule reads the opcode the instruction has. -/
theorem decodedInstructionIsWellFormed : Obligations.DecodedInstructionIsWellFormed := by
  intro bs i n h
  obtain ⟨hwf, hn, hle⟩ := decodeFront_word_wf h
  exact ⟨hwf, hn.trans i.ilen_opcode, hle⟩

/-- Settles O45: under the invariant a report and phase Faulted go together, before the step and after it. -/
theorem reportIsWrittenAtMostOnce : Obligations.ReportIsWrittenAtMostOnce := by
  intro s t h hs
  refine ⟨?_, (h.step hs).fault_iff⟩
  obtain ⟨hp, -⟩ | ⟨hp, -⟩ := step_cases hs
  · exact (h.decode hp).2
  · exact (h.execute hp).2

/-- Settles O46: the invariant keeps both counters in their types, and there every working step is enabled. -/
theorem stepEnabledUntilRunEnds : Obligations.StepEnabledUntilRunEnds := by
  intro s h
  constructor
  · rintro ⟨t, hs⟩
    exact (step_cases hs).imp And.left And.left
  · rintro (hp | hp)
    · rw [step_of_decode hp]
      exact decodeStep_next h.cur_le
    · rw [step_of_execute hp]
      exact executeStep_next h.pc_le

/-! ## Reset, the kept register check, and the ends of a run -/

/-- Settles O1, item by item. -/
theorem resetSetsEveryItem : Obligations.ResetSetsEveryItem :=
  fun bytes => ⟨State.reg_start bytes, Memory.cell_nil, rfl, rfl, rfl, rfl, rfl, rfl⟩

/-- Settles O8: in each instruction's outcomes the broken index leaves one case. -/
theorem registerIndexPastBankAborts : Obligations.RegisterIndexPastBankAborts := by
  refine ⟨fun b c s hc => ?_, fun b c s hb hc => ?_, fun b c s hc => ?_, fun b c s hb hc => ?_,
    fun b c d s hc => ?_⟩
  · obtain ⟨hc', -⟩ | ⟨-, he⟩ := execLoadConst_cases (b := b) (c := c) (s := s) rfl
    · exact absurd hc' hc.not_gt
    · exact he
  · obtain ⟨-, hc', -⟩ | ⟨hb', -⟩ | ⟨-, -, he⟩ := execRead_cases (b := b) (c := c) (s := s) rfl
    · exact absurd hc' hc.not_gt
    · exact absurd hb hb'
    · exact he
  · obtain ⟨hc', -⟩ | ⟨-, he⟩ | ⟨hc', -⟩ | ⟨hc', -⟩ := execWrite_cases (b := b) (c := c) (s := s) rfl
    · exact absurd hc' hc.not_gt
    · exact he
    · exact absurd hc' hc.not_gt
    · exact absurd hc' hc.not_gt
  · obtain ⟨-, hb', -⟩ | ⟨hc', -⟩ | ⟨-, -, he⟩ | ⟨-, hb', -⟩ :=
      execWrite_cases (b := b) (c := c) (s := s) rfl
    · exact absurd hb' hb.not_gt
    · exact absurd hc hc'
    · exact he
    · exact absurd hb' hb.not_gt
  · obtain ⟨hc', -⟩ | ⟨-, he⟩ | ⟨hc', -⟩ | ⟨hc', -⟩ :=
      execLt_cases (b := b) (c := c) (d := d) (s := s) rfl rfl
    · exact absurd hc' hc.not_gt
    · exact he
    · exact absurd hc' hc.not_gt
    · exact absurd hc' hc.not_gt

/-- Settles O24: a step with a next state starts in phase Decode or Execute. -/
theorem endedRunHasNoStep : Obligations.EndedRunHasNoStep := by
  rintro s t hp hs
  obtain ⟨hd, -⟩ | ⟨he, -⟩ := step_cases hs
  · simp [hd] at hp
  · simp [he] at hp

theorem start_runInv (bytes : List Byte) : RunInv (State.start bytes) where
  cur_le := Nat.zero_le _
  pc_le := Nat.zero_le _
  iq_len := Nat.zero_le _
  decode _ := ⟨rfl, rfl⟩
  execute := nofun
  halted := nofun
  faulted := nofun

theorem start_prefixInv (bytes : List Byte) : PrefixInv (State.start bytes) :=
  ⟨Nat.zero_le _, rfl⟩

theorem start_decodedInv (bytes : List Byte) : DecodedInv (State.start bytes) :=
  ⟨nofun, nofun⟩

theorem start_untouched (bytes : List Byte) : Untouched (State.start bytes) :=
  ⟨State.reg_start bytes, Memory.cell_nil⟩

theorem Untouched.smallInv {s : State} (h : Untouched s) : SmallInv s :=
  ⟨fun j => by simp [h.1 j], fun a => by simp [h.2 a]⟩

/-- Settles O44; reset is the start of the run on the empty stream. -/
theorem invariantsHoldAtReset : Obligations.InvariantsHoldAtReset := by
  have hstart (bytes : List Byte) : RunInv (State.start bytes) ∧ MemInv (State.start bytes)
      ∧ PrefixInv (State.start bytes) ∧ DecodedInv (State.start bytes) ∧ SmallInv (State.start bytes)
      ∧ UntouchedInv (State.start bytes) :=
    ⟨start_runInv bytes, rfl, start_prefixInv bytes, start_decodedInv bytes,
      (start_untouched bytes).smallInv, fun _ => start_untouched bytes⟩
  exact ⟨hstart [], hstart⟩

end Sys2Proof.Machine

/-! # Proofs: the data memory (spec/20_memory.md)

Where an instruction and a step may write, the canonical form as the data of the cells, and the snapshot. -/

namespace Sys2Proof.Machine

/-! ## What an instruction and a step do to the memory -/

theorem memRead_of_lt {s : State} {a : Nat} (h : a < 4096) : memRead s a = .ok (Memory.cell s.mem a) :=
  memRead_ok.2 ⟨h, rfl⟩

theorem memWrite_of_lt {s : State} {a : Nat} (h : a < 4096) (v : Word) :
    memWrite s a v = .ok (s.setCell a v) :=
  memWrite_ok.2 ⟨h, rfl⟩

/-- The memory is left alone, or one cell inside it is set at the instruction's store address, in every outcome. -/
theorem exec_mem {i : Instr} {s t : State} (h : exec i s = .next t) :
    t.mem = s.mem ∨
      ∃ a v, storeAddr s i = some a ∧ a < Config.memsize ∧ t.mem = Memory.set s.mem a v := by
  cases i with
  | loadConst b c =>
    obtain ⟨-, he⟩ | ⟨-, he⟩ := execLoadConst_cases h <;> cases he <;> exact .inl rfl
  | read b c =>
    obtain ⟨-, -, he⟩ | ⟨-, he⟩ | ⟨-, -, he⟩ := execRead_cases h <;> cases he <;> exact .inl rfl
  | write b c =>
    obtain ⟨-, -, hm, he⟩ | ⟨-, he⟩ | ⟨-, -, he⟩ | ⟨-, -, -, he⟩ := execWrite_cases h <;> cases he
    · exact .inr ⟨_, _, rfl, hm, rfl⟩
    all_goals exact .inl rfl
  | lt b c d =>
    obtain ⟨-, hm, -, he⟩ | ⟨-, he⟩ | ⟨-, -, he⟩ | ⟨-, -, -, he⟩ := execLt_cases rfl h <;> cases he
    · exact .inr ⟨_, _, rfl, hm, rfl⟩
    all_goals exact .inl rfl

/-- A step leaves the memory alone or sets one cell inside it. -/
theorem step_mem {s t : State} (h : step s = .next t) :
    t.mem = s.mem ∨ ∃ a v, a < Config.memsize ∧ t.mem = Memory.set s.mem a v := by
  obtain ⟨-, hd⟩ | ⟨-, he⟩ := step_cases h
  · obtain ⟨-, ⟨-, rfl⟩ | ⟨_, _, -, rfl⟩ | ⟨_, -, rfl⟩ | ⟨_, _, -, rfl⟩⟩ := decodeStep_cases hd <;>
      exact .inl rfl
  · obtain ⟨-, rfl⟩ | ⟨i, -, -, hx⟩ := executeStep_cases he
    · exact .inl rfl
    · exact (exec_mem hx).imp_right fun ⟨a, v, _, ha, hm⟩ => ⟨a, v, ha, hm⟩

/-- Settles O40: the one cell a step may set lies inside the memory, where `Memory.set` keeps the form. -/
theorem canonicalMemoryKeptByEveryStep : Obligations.CanonicalMemoryKeptByEveryStep := by
  intro s t h hs
  obtain hm | ⟨a, v, ha, hm⟩ := step_mem hs <;> rw [MemInv, hm]
  · exact h
  · exact Memory.wf_set h ha v

/-- Settles O12: the cell an instruction sets is the one at its store address. -/
theorem memoryWrittenAtStoreAddressOnly : Obligations.MemoryWrittenAtStoreAddressOnly := by
  intro i s t h a ha
  obtain hm | ⟨a', v, hstore, -, hm⟩ := exec_mem h
  · rw [hm]
  · have hne : a ≠ a' := fun e => ha (e ▸ hstore)
    rw [hm, Memory.cell_set, if_neg hne]

/-- Settles O18: inside the memory both accesses answer, and past it both raise. -/
theorem checkedAccessesObeyBounds : Obligations.CheckedAccessesObeyBounds := by
  intro s a v
  constructor
  · intro ha
    exact ⟨memRead_of_lt ha, s.setCell a v, memWrite_of_lt ha v, rfl, Memory.cell_set s.mem a v⟩
  · intro ha
    have hn : ¬ a < Config.memsize := ha.not_gt
    exact ⟨memRead_error.2 ⟨hn, rfl⟩, memWrite_error.2 ⟨hn, rfl⟩⟩

/-- Settles O27: the one cell a step may set is below 4096. -/
theorem noCellBeyondMemoryChanges : Obligations.NoCellBeyondMemoryChanges := by
  intro s t hs a ha
  obtain hm | ⟨a', v, ha', hm⟩ := step_mem hs
  · rw [hm]
  · have hne : a ≠ a' := (ha'.trans_le ha).ne'
    rw [hm, Memory.cell_set, if_neg hne]

/-- Settles O9: with the register index and the computed address inside, LT's outcomes leave the direct one. -/
theorem ltDirectAddressPastMemoryAborts : Obligations.LtDirectAddressPastMemoryAborts := by
  intro b c d s hc ha hb
  obtain ⟨-, -, hb', -⟩ | ⟨hc', -⟩ | ⟨-, ha', -⟩ | ⟨-, -, -, he⟩ :=
    execLt_cases (b := b) (c := c) (d := d) (s := s) rfl rfl
  · exact absurd hb' hb.not_gt
  · exact absurd hc hc'
  · exact absurd ha ha'
  · exact he

/-! ## The canonical form determines the data -/

theorem Memory.wfFrom_cons {lo a : Nat} {v : Word} {m : Memory} :
    Memory.wfFrom lo ((a, v) :: m) = true ↔
      lo ≤ a ∧ a < Config.memsize ∧ v ≠ Memory.unlisted ∧ Memory.wfFrom (a + 1) m = true := by
  simp [Memory.wfFrom, and_assoc]

theorem Memory.cell_cons_self (a : Nat) (v : Word) (m : Memory) : Memory.cell ((a, v) :: m) a = v :=
  if_pos rfl

theorem Memory.cell_cons_of_ne {a x : Nat} (h : x ≠ a) (v : Word) (m : Memory) :
    Memory.cell ((a, v) :: m) x = Memory.cell m x :=
  if_neg h

/-- A canonical memory lists nothing below its first address. -/
theorem Memory.head_le_of_cell_ne {lo a x : Nat} {v : Word} {m : Memory}
    (h : Memory.wfFrom lo ((a, v) :: m) = true) (hx : Memory.cell ((a, v) :: m) x ≠ Memory.unlisted) :
    a ≤ x := by
  obtain ⟨-, hrest⟩ := Memory.wfFrom_cons.1 h
  have hfrom : Memory.wfFrom a ((a, v) :: m) = true := Memory.wfFrom_cons.2 ⟨le_rfl, hrest⟩
  exact not_lt.1 fun hlt => hx (Memory.cell_eq_unlisted_of_lt hfrom hlt)

theorem Memory.cell_head_ne {lo a : Nat} {v : Word} {m : Memory}
    (h : Memory.wfFrom lo ((a, v) :: m) = true) :
    Memory.cell ((a, v) :: m) a ≠ Memory.unlisted := by
  rw [Memory.cell_cons_self]
  exact (Memory.wfFrom_cons.1 h).2.2.1

/-- Each head is the first address that reads other than unlisted, so the heads agree, and then the tails do. -/
theorem Memory.eq_of_cell_eq {m m' : Memory} {lo : Nat} (h : Memory.wfFrom lo m = true)
    (h' : Memory.wfFrom lo m' = true) (hcell : ∀ a, Memory.cell m a = Memory.cell m' a) : m = m' := by
  induction m generalizing lo m' with
  | nil =>
    cases m' with
    | nil => rfl
    | cons q m' => exact absurd (hcell q.1).symm (Memory.cell_head_ne h')
  | cons p m ih =>
    obtain ⟨a, v⟩ := p
    cases m' with
    | nil => exact absurd (hcell a) (Memory.cell_head_ne h)
    | cons q m' =>
      obtain ⟨b, w⟩ := q
      have hba : b ≤ a := Memory.head_le_of_cell_ne h' (hcell a ▸ Memory.cell_head_ne h)
      have hab : a ≤ b := Memory.head_le_of_cell_ne h (hcell b ▸ Memory.cell_head_ne h')
      obtain rfl : a = b := le_antisymm hab hba
      obtain rfl : v = w := by simpa only [Memory.cell_cons_self] using hcell a
      obtain ⟨-, -, -, htail⟩ := Memory.wfFrom_cons.1 h
      obtain ⟨-, -, -, htail'⟩ := Memory.wfFrom_cons.1 h'
      have hrest (x : Nat) : Memory.cell m x = Memory.cell m' x := by
        by_cases hx : x = a
        · have hlt : x < a + 1 := by omega
          rw [Memory.cell_eq_unlisted_of_lt htail hlt, Memory.cell_eq_unlisted_of_lt htail' hlt]
        · simpa only [Memory.cell_cons_of_ne hx] using hcell x
      rw [ih htail htail' hrest]

/-- Settles O19: the canonical form from address 0 on. -/
theorem canonicalMemoriesThatReadAlikeAreEqual : Obligations.CanonicalMemoriesThatReadAlikeAreEqual :=
  fun _ _ => Memory.eq_of_cell_eq

/-! ## The snapshot -/

theorem mem_cellsFrom {m : Memory} {a n x : Nat} {v : Word} :
    (x, v) ∈ cellsFrom m a n ↔ a ≤ x ∧ x < a + n ∧ v = Memory.cell m x := by
  induction n generalizing a with
  | zero => exact iff_of_false List.not_mem_nil fun ⟨hle, hlt, _⟩ => hlt.not_ge hle
  | succ n ih =>
    simp only [cellsFrom, List.mem_cons, Prod.mk.injEq, ih]
    constructor
    · rintro (⟨rfl, rfl⟩ | ⟨hle, hlt, hv⟩)
      · exact ⟨le_rfl, by omega, rfl⟩
      · exact ⟨by omega, by omega, hv⟩
    · rintro ⟨hle, hlt, rfl⟩
      obtain rfl | hne := eq_or_ne x a
      · exact .inl ⟨rfl, rfl⟩
      · exact .inr ⟨by omega, by omega, rfl⟩

theorem cellsFrom_pairwise (m : Memory) (a n : Nat) :
    (cellsFrom m a n).Pairwise fun p q => p.1 < q.1 := by
  induction n generalizing a with
  | zero => exact .nil
  | succ n ih => exact .cons (fun _ hq => (mem_cellsFrom.1 hq).1) (ih (a + 1))

theorem State.ended_iff (s : State) : s.ended = true ↔ s.phase = .halted ∨ s.phase = .faulted := by
  simp [State.ended]

theorem clampBound_cast (a : Int) : (clampBound a : Int) = min (max a 0) 4096 := by
  simp [clampBound, Config.memsize]

/-- Settles O53: the listed range is from the clamped start up to the clamped end. -/
theorem snapshotListsClampedRange : Obligations.SnapshotListsClampedRange := by
  intro s start stop hp
  refine ⟨_, if_pos (s.ended_iff.2 hp), fun a v => ?_, cellsFrom_pairwise _ _ _⟩
  rw [mem_cellsFrom, ← clampBound_cast start, ← clampBound_cast stop, Nat.cast_le, Nat.cast_lt]
  refine and_congr_right fun hstart => and_congr_left fun _ => ?_
  omega

end Sys2Proof.Machine

/-! # Proofs: the encoding (spec/30_encoding.md)

The decoder case by case and the encoded word, then the bytes of an instruction and of a program, then the records
of the encoder; the obligations are assembled from these. -/

namespace Sys2Proof

/-! ## The word of an instruction -/

theorem decodeWord_of_loadConst {w : Nat} (h : bits w 3 0 = Config.opLoadConst) :
    decodeWord w = some (.loadConst (BitVec.ofNat _ (bits w 19 4)) (bits w 26 20)) := by
  simp [decodeWord, h]

theorem decodeWord_of_read {w : Nat} (h : bits w 3 0 = Config.opRead) :
    decodeWord w = some (.read (bits w 20 4) (bits w 27 21)) := by
  simp [decodeWord, h]

theorem decodeWord_of_write {w : Nat} (h : bits w 3 0 = Config.opWrite) :
    decodeWord w = some (.write (bits w 10 4) (bits w 17 11)) := by
  simp [decodeWord, h]

theorem decodeWord_of_lt {w : Nat} (h : bits w 3 0 = Config.opLt) :
    decodeWord w = some (.lt (bits w 10 4) (bits w 17 11) (BitVec.ofNat _ (bits w 25 18))) := by
  simp [decodeWord, h]

/-- Every field lies below the pad bits (R55, R63). -/
theorem encodeWord_lt (i : Instr) : encodeWord i < 2 ^ i.fieldBits := by
  cases i with simp [encodeWord, Instr.fieldBits]
  | loadConst b c => omega
  | read b c => omega
  | write b c => omega
  | lt b c d => omega

/-- Each field is read back from its place, cut to its width, whatever stands in the pad bits (R63, R71). -/
theorem decodeWord_encodeWord_add_pad (i : Instr) (p : Nat) :
    decodeWord (encodeWord i + p * 2 ^ i.fieldBits) = some i.narrow := by
  generalize hw : encodeWord i + p * 2 ^ i.fieldBits = w
  cases i with simp [encodeWord, Instr.fieldBits] at hw
  | loadConst b c =>
    have hop : bits w 3 0 = 1 := by simp [bits_eq]; omega
    have hb : bits w 19 4 = b.toNat := by simp [bits_eq]; omega
    have hc : bits w 26 20 = c % 2 ^ 7 := by simp [bits_eq]; omega
    simp [decodeWord_of_loadConst hop, Instr.narrow, hb, hc]
  | read b c =>
    have hop : bits w 3 0 = 4 := by simp [bits_eq]; omega
    have hb : bits w 20 4 = b % 2 ^ 17 := by simp [bits_eq]; omega
    have hc : bits w 27 21 = c % 2 ^ 7 := by simp [bits_eq]; omega
    rw [decodeWord_of_read hop, Instr.narrow, hb, hc]
  | write b c =>
    have hop : bits w 3 0 = 15 := by simp [bits_eq]; omega
    have hb : bits w 10 4 = b % 2 ^ 7 := by simp [bits_eq]; omega
    have hc : bits w 17 11 = c % 2 ^ 7 := by simp [bits_eq]; omega
    rw [decodeWord_of_write hop, Instr.narrow, hb, hc]
  | lt b c d =>
    have hop : bits w 3 0 = 9 := by simp [bits_eq]; omega
    have hb : bits w 10 4 = b % 2 ^ 7 := by simp [bits_eq]; omega
    have hc : bits w 17 11 = c % 2 ^ 7 := by simp [bits_eq]; omega
    have hd : bits w 25 18 = d.toNat := by simp [bits_eq]; omega
    simp [decodeWord_of_lt hop, Instr.narrow, hb, hc, hd]

theorem decodeWord_encodeWord (i : Instr) : decodeWord (encodeWord i) = some i.narrow := by
  simpa using decodeWord_encodeWord_add_pad i 0

theorem Instr.narrow_of_wf {i : Instr} (h : WellFormed i) : i.narrow = i := by
  cases i with simp [WellFormed, Instr.wf] at h
  | loadConst b c => simp [Instr.narrow, Nat.mod_eq_of_lt h]
  | read b c => simp [Instr.narrow, Nat.mod_eq_of_lt h.1, Nat.mod_eq_of_lt h.2]
  | write b c => simp [Instr.narrow, Nat.mod_eq_of_lt h.1, Nat.mod_eq_of_lt h.2]
  | lt b c d => simp [Instr.narrow, Nat.mod_eq_of_lt h.1, Nat.mod_eq_of_lt h.2]

/-- The fields of a decoded word, put back in their places, are the word below its pad bits. -/
theorem encodeWord_of_decodeWord {w : Nat} {i : Instr} (h : decodeWord w = some i) :
    encodeWord i = w % 2 ^ i.fieldBits := by
  obtain ⟨-, hop⟩ := decodeWord_some h
  cases i with
  | loadConst b c =>
    cases (decodeWord_of_loadConst hop.symm).symm.trans h
    simp [bits_eq, encodeWord, Instr.fieldBits, Instr.opcode] at hop ⊢
    omega
  | read b c =>
    cases (decodeWord_of_read hop.symm).symm.trans h
    simp [bits_eq, encodeWord, Instr.fieldBits, Instr.opcode] at hop ⊢
    omega
  | write b c =>
    cases (decodeWord_of_write hop.symm).symm.trans h
    simp [bits_eq, encodeWord, Instr.fieldBits, Instr.opcode] at hop ⊢
    omega
  | lt b c d =>
    cases (decodeWord_of_lt hop.symm).symm.trans h
    simp [bits_eq, encodeWord, Instr.fieldBits, Instr.opcode] at hop ⊢
    omega

theorem decodeWord_eq_none_iff {w : Nat} : decodeWord w = none ↔ bits w 3 0 ∉ [1, 4, 9, 15] := by
  refine ⟨decodeWord_eq_none, fun hn => Option.eq_none_iff_forall_ne_some.2 fun i h => ?_⟩
  rw [← (decodeWord_some h).2] at hn
  cases i <;> simp [Instr.opcode] at hn

/-! ## The bytes of an instruction and of a program -/

/-- An instruction's word has its bytes' worth of field bits at most, so its bytes lose nothing. -/
theorem le_encode (i : Instr) : le (encode i) = encodeWord i := by
  have hfit : 2 ^ i.fieldBits ≤ 256 ^ ilen i.opcode := by cases i <;> simp [Instr.fieldBits]
  rw [encode, le_leBytes, Nat.mod_eq_of_lt ((encodeWord_lt i).trans_le hfit)]

@[simp] theorem Instr.opcode_narrow (i : Instr) : i.narrow.opcode = i.opcode := by
  cases i <;> rfl

theorem decodeFront_encode (i : Instr) : decodeFront (encode i) = .word i.narrow (encode i).length := by
  have hlen := encode_length i
  have hword := le_encode i
  have hpos := ilen_cases i.opcode
  obtain ⟨b0, rest, hbytes⟩ := List.exists_cons_of_length_pos (l := encode i) (by omega)
  have htake : (encode i).take (ilen i.opcode) = encode i := by rw [← hlen, List.take_length]
  have hop : opcodeOf b0 = i.opcode := by
    rw [← bits_le_take_ilen b0 rest i.opcode, ← hbytes, htake, hword,
      ← (decodeWord_some (decodeWord_encodeWord i)).2, Instr.opcode_narrow]
  refine decodeFront_word.2 ⟨b0, rest, hbytes, by rw [hop, hlen], le_rfl, ?_⟩
  rw [List.take_length, hword, decodeWord_encodeWord]

/-- The list grows by one word at its end, as the decoder's does. -/
theorem decodeStream_encodeStream (is : List Instr) :
    decodeStream (encodeStream is) = some (is.map Instr.narrow) := by
  induction is using List.reverseRecOn with
  | nil => rfl
  | append_singleton is i ih =>
    have hcat : encodeStream (is ++ [i]) = encodeStream is ++ encode i := by simp [encodeStream]
    rw [hcat, decodeStream_append_word ih (decodeFront_encode i), List.map_append, List.map_singleton]

theorem map_narrow_of_wf {is : List Instr} (h : ∀ i ∈ is, WellFormed i) : is.map Instr.narrow = is := by
  rw [List.map_congr_left fun i hi => Instr.narrow_of_wf (h i hi), List.map_id']

/-! ## The encoder's records -/

/-- The three names of LOAD_CONST, in lower case (R76). -/
theorem SourceRecord.instr_of_loadConst {r : SourceRecord}
    (h : r.name.map lowerChar ∈ ["load_const".toList, "ldc".toList, "const".toList]) :
    r.instr = some (.loadConst (BitVec.ofNat _ r.b) r.c) :=
  if_pos (by simpa using h)

theorem SourceRecord.instr_of_read {r : SourceRecord} (h : r.name.map lowerChar = "read".toList) :
    r.instr = some (.read r.b r.c) := by
  simp [SourceRecord.instr, h]

theorem SourceRecord.instr_of_write {r : SourceRecord} (h : r.name.map lowerChar = "write".toList) :
    r.instr = some (.write r.b r.c) := by
  simp [SourceRecord.instr, h]

/-- The two names of LT. -/
theorem SourceRecord.instr_of_lt {r : SourceRecord}
    (h : r.name.map lowerChar ∈ ["lt".toList, "<".toList]) :
    r.instr = some (.lt r.b r.c (BitVec.ofNat _ r.d)) := by
  obtain h | h := List.mem_pair.1 h <;> simp [SourceRecord.instr, h]

theorem SourceRecord.instr_of_other {r : SourceRecord}
    (h : r.name.map lowerChar ∉ ["load_const".toList, "ldc".toList, "const".toList, "read".toList,
      "write".toList, "lt".toList, "<".toList]) : r.instr = none := by
  unfold SourceRecord.instr
  generalize r.name.map lowerChar = name at h
  simp at h
  simp [h]

/-- Whatever its name, a record's instruction is one of these four. -/
theorem SourceRecord.instr_cases {r : SourceRecord} {i : Instr} (h : r.instr = some i) :
    i = .loadConst (BitVec.ofNat _ r.b) r.c ∨ i = .read r.b r.c ∨ i = .write r.b r.c ∨
      i = .lt r.b r.c (BitVec.ofNat _ r.d) := by
  simp only [SourceRecord.instr] at h
  split_ifs at h <;> cases h <;> simp

/-- Encoding a record succeeds exactly when it names an instruction and its own A, if any, is that opcode (R73,
D13). -/
theorem encodeRecord_ok {r : SourceRecord} {bs : List Byte} :
    encodeRecord r = .ok bs ↔
      ∃ i, r.instr = some i ∧ (r.a = none ∨ r.a = some i.opcode) ∧ bs = encode i := by
  unfold encodeRecord
  cases r.instr with
  | none => simp
  | some i =>
    cases r.a with
    | none => simp [eq_comm]
    | some a =>
      by_cases ha : a = i.opcode <;> simp [ha, eq_comm]

theorem encodeRecord_of_none {r : SourceRecord} (h : r.instr = none) :
    encodeRecord r = .error (.unknownOpcode r.name) := by
  simp [encodeRecord, h]

theorem encodeRecord_of_other_opcode {r : SourceRecord} {i : Instr} {a : Nat} (h : r.instr = some i)
    (ha : r.a = some a) (hne : a ≠ i.opcode) : encodeRecord r = .error (.opcodeMismatch a) := by
  simp [encodeRecord, h, ha, hne]

theorem assemble_cons_ok {r : SourceRecord} {rs : List SourceRecord} {bs : List Byte}
    (h : assemble (r :: rs) = .ok bs) :
    ∃ w rest, encodeRecord r = .ok w ∧ assemble rs = .ok rest ∧ bs = w ++ rest := by
  rw [assemble] at h
  split at h
  · cases h
  · next w hw =>
    split at h <;> cases h
    next rest hrest => exact ⟨w, rest, hw, hrest, rfl⟩

/-- A program that assembles names an instruction in every record, and its stream is theirs (R70, R73). -/
theorem assemble_ok {rs : List SourceRecord} {bs : List Byte} (h : assemble rs = .ok bs) :
    ∃ is : List Instr, rs.map SourceRecord.instr = is.map some ∧ bs = encodeStream is := by
  induction rs generalizing bs with
  | nil =>
    cases h
    exact ⟨[], rfl, rfl⟩
  | cons r rs ih =>
    obtain ⟨w, rest, hw, hrest, rfl⟩ := assemble_cons_ok h
    obtain ⟨i, hi, -, rfl⟩ := encodeRecord_ok.1 hw
    obtain ⟨is, his, rfl⟩ := ih hrest
    exact ⟨i :: is, by rw [List.map_cons, hi, his, List.map_cons], by simp [encodeStream]⟩

theorem upperCase_letters :
    "ABCDEFGHIJKLMNOPQRSTUVWXYZ".toList = (List.range' 65 26).map Char.ofNat := by decide

theorem lowerChar_of_not_upper {ch : Char} (h : ch ∉ "ABCDEFGHIJKLMNOPQRSTUVWXYZ".toList) :
    lowerChar ch = ch := by
  refine if_neg fun hrange => h ?_
  rw [upperCase_letters]
  exact List.mem_map.2 ⟨ch.toNat, List.mem_range'_1.2 ⟨hrange.1, by omega⟩, ch.ofNat_toNat⟩

end Sys2Proof

namespace Sys2Proof.Machine

/-! ## The obligations -/

/-- Settles O29: the bytes after a word do not matter, and the instruction narrowed has the record's fields reduced. -/
theorem decodeEncodeRoundTrip : Obligations.DecodeEncodeRoundTrip := by
  refine ⟨fun i rest hwf => ?_, fun r i hi ha => ?_⟩
  · have hword := decodeFront_append_word (decodeFront_encode i) rest
    rwa [Instr.narrow_of_wf hwf] at hword
  · refine ⟨encode i, encodeRecord_ok.2 ⟨i, hi, ha, rfl⟩, ?_, ?_⟩
    · rw [encode_length]
      cases i <;> rfl
    · rw [decodeFront_encode]
      obtain rfl | rfl | rfl | rfl := SourceRecord.instr_cases hi <;>
        simp [Instr.narrow, ← BitVec.toNat_inj]

/-- Settles O30: an assembled program is the stream of the instructions it names, and that decodes word by word. -/
theorem encodedProgramDecodesToItself : Obligations.EncodedProgramDecodesToItself := by
  refine ⟨fun is hwf => ?_, fun rs bs h => ?_⟩
  · rw [decodeStream_encodeStream, map_narrow_of_wf hwf]
  · obtain ⟨is, his, rfl⟩ := assemble_ok h
    exact ⟨is, his, decodeStream_encodeStream is⟩

/-- Settles O31: a program that assembles has no record without an instruction. -/
theorem unknownNameAbortsAssembly : Obligations.UnknownNameAbortsAssembly := by
  intro rs r hr hnone
  refine ⟨?_, encodeRecord_of_none hnone⟩
  cases h : assemble rs with
  | error e => exact ⟨e, rfl⟩
  | ok bs =>
    obtain ⟨is, his, -⟩ := assemble_ok h
    have hmem : none ∈ is.map some := his ▸ List.mem_map.2 ⟨r, hr, hnone⟩
    simp at hmem

/-- Settles O32: one lemma per row of R76's table, for every other name, and for D13. -/
theorem mnemonicsSelectInstructions : Obligations.MnemonicsSelectInstructions := by
  exact ⟨by decide, fun _ => lowerChar_of_not_upper, fun r => ⟨r.instr_of_loadConst, r.instr_of_read,
    r.instr_of_write, r.instr_of_lt, r.instr_of_other, fun _ _ => encodeRecord_of_other_opcode⟩⟩

/-- Settles O33, by the fields of each instruction. -/
theorem encodeDecodedWordClearsPad : Obligations.EncodeDecodedWordClearsPad :=
  fun _ _ => encodeWord_of_decodeWord

/-- Settles O34: below its pad bits a decoded word is its instruction's encoding. -/
theorem padBitsAreZeroAndIgnored : Obligations.PadBitsAreZeroAndIgnored := by
  refine ⟨encodeWord_lt, fun w p i h => ?_⟩
  obtain ⟨hwf, -⟩ := decodeWord_some h
  rw [← encodeWord_of_decodeWord h, decodeWord_encodeWord_add_pad, Instr.narrow_of_wf hwf]

/-- Settles O35: each defined nibble decodes, and a decoded word carries its instruction's opcode. -/
theorem nibbleSelectsInstructionAndLength : Obligations.NibbleSelectsInstructionAndLength := by
  refine ⟨fun a => rfl, fun w => ?_⟩
  rw [← bits_low_nibble w]
  exact ⟨⟨fun h => ⟨_, _, decodeWord_of_loadConst h⟩, fun ⟨_, _, h⟩ => (decodeWord_some h).2.symm⟩,
    ⟨fun h => ⟨_, _, decodeWord_of_read h⟩, fun ⟨_, _, h⟩ => (decodeWord_some h).2.symm⟩,
    ⟨fun h => ⟨_, _, decodeWord_of_write h⟩, fun ⟨_, _, h⟩ => (decodeWord_some h).2.symm⟩,
    ⟨fun h => ⟨_, _, _, decodeWord_of_lt h⟩, fun ⟨_, _, _, h⟩ => (decodeWord_some h).2.symm⟩,
    by simp [decodeWord_eq_none_iff]⟩

/-- Settles O37: the four words are run through the decoder. -/
theorem writtenOutWordsDecode : Obligations.WrittenOutWordsDecode := by
  unfold Obligations.WrittenOutWordsDecode
  decide

end Sys2Proof.Machine


/-! # Proofs: the sequencer (spec/40_sequencer.md)

First what the decoder finds at the cursor and what one step can do, said once; then the step lemmas, and runs
of many steps. -/

namespace Sys2Proof

/-! ## The word at the front, by its bytes -/

theorem drop_eq_cons_of_getElem? {α : Type} {l : List α} {k : Nat} {x : α} (h : l[k]? = some x) :
    l.drop k = x :: l.drop (k + 1) := by
  obtain ⟨hlt, rfl⟩ := List.getElem?_eq_some_iff.1 h
  exact List.drop_eq_getElem_cons hlt

/-- R52 in terms of the first byte. -/
theorem ilen_opcodeOf (b0 : Byte) : ilen (opcodeOf b0) = Machine.wordLen b0 := by
  rw [opcodeOf, bits_low_nibble]
  rfl

theorem le_three (b0 b1 b2 : Byte) :
    le [b0, b1, b2] = b0.toNat + 256 * b1.toNat + 65536 * b2.toNat := by
  simp only [le]
  omega

theorem le_four (b0 b1 b2 b3 : Byte) :
    le [b0, b1, b2, b3] = b0.toNat + 256 * b1.toNat + 65536 * b2.toNat + 16777216 * b3.toNat := by
  simp only [le]
  omega

theorem decodeFront_three {b0 b1 b2 : Byte} {i : Instr} (hlen : Machine.wordLen b0 = 3)
    (h : decodeWord (b0.toNat + 256 * b1.toNat + 65536 * b2.toNat) = some i) (rest : List Byte) :
    decodeFront (b0 :: b1 :: b2 :: rest) = .word i 3 := by
  refine decodeFront_word.2 ⟨b0, _, rfl, by rw [ilen_opcodeOf, hlen], by simp, ?_⟩
  rwa [← le_three] at h

theorem decodeFront_four {b0 b1 b2 b3 : Byte} {i : Instr} (hlen : Machine.wordLen b0 = 4)
    (h : decodeWord (b0.toNat + 256 * b1.toNat + 65536 * b2.toNat + 16777216 * b3.toNat) = some i)
    (rest : List Byte) : decodeFront (b0 :: b1 :: b2 :: b3 :: rest) = .word i 4 := by
  refine decodeFront_word.2 ⟨b0, _, rfl, by rw [ilen_opcodeOf, hlen], by simp, ?_⟩
  rwa [← le_four] at h

/-- A whole word with a reserved nibble (R64). -/
theorem decodeFront_reserved {b0 : Byte} {rest : List Byte} (hlen : Machine.wordLen b0 ≤ (b0 :: rest).length)
    (h : Machine.ReservedNibble b0) : decodeFront (b0 :: rest) = .unknownOpcode (b0.toNat % 16) := by
  have hop : opcodeOf b0 = b0.toNat % 16 := bits_low_nibble _
  rw [← hop, decodeFront_unknownOpcode]
  refine ⟨b0, rest, rfl, rfl, by rwa [ilen_opcodeOf], decodeWord_eq_none_iff.2 ?_⟩
  rw [bits_le_take_ilen, hop]
  simpa [Machine.ReservedNibble] using h

end Sys2Proof

namespace Sys2Proof.Machine

theorem State.remaining_eq_nil {s : State} (h : s.cur = s.stream.length) : s.remaining = [] :=
  List.drop_of_length_le h.ge

theorem State.cur_eq_of_remaining_eq_nil {s : State} (hcur : s.cur ≤ s.stream.length)
    (h : s.remaining = []) : s.cur = s.stream.length :=
  hcur.antisymm (List.drop_eq_nil_iff.1 h)

theorem State.remaining_appendWord (s : State) (i : Instr) (n : Nat) :
    (s.appendWord i n).remaining = s.remaining.drop n :=
  List.drop_drop.symm

theorem State.appendWord_cur_le {s : State} {i : Instr} {n : Nat} (hcur : s.cur ≤ s.stream.length)
    (h : decodeFront s.remaining = .word i n) : s.cur + n ≤ s.stream.length := by
  have hle := (decodeFront_word_length h).2
  have hlen := s.length_remaining
  omega

/-- The length of the decoded word is read off the byte at the cursor. -/
theorem State.wordLen_of_front {s : State} {i : Instr} {n : Nat} (h : decodeFront s.remaining = .word i n) :
    ∃ b0, s.stream[s.cur]? = some b0 ∧ n = wordLen b0 := by
  obtain ⟨b0, rest, hrem, hn, -, -⟩ := decodeFront_word.1 h
  refine ⟨b0, ?_, hn.trans (ilen_opcodeOf b0)⟩
  rw [← List.head?_drop]
  exact congrArg List.head? hrem

/-! ## One step, forwards: what the decoder finds decides it -/

theorem step_of_endOfStream {s : State} (hp : s.phase = .decode) (hcur : s.cur = s.stream.length) :
    step s = .next s.enterExecute := by
  rw [step_of_decode hp, decodeStep, if_neg hcur.not_gt, s.remaining_eq_nil hcur, decodeFront]

theorem step_of_word {s : State} {i : Instr} {n : Nat} (hp : s.phase = .decode)
    (hcur : s.cur ≤ s.stream.length) (h : decodeFront s.remaining = .word i n) :
    step s = .next (s.appendWord i n) := by
  rw [step_of_decode hp, decodeStep, if_neg hcur.not_gt, h]

theorem step_of_truncated {s : State} {need have_ : Nat} (hp : s.phase = .decode)
    (hcur : s.cur ≤ s.stream.length) (h : decodeFront s.remaining = .truncated need have_) :
    step s = .next (s.raise (.truncatedStream s.cur need have_)) := by
  rw [step_of_decode hp, decodeStep, if_neg hcur.not_gt, h]

theorem step_of_unknownOpcode {s : State} {a : Nat} (hp : s.phase = .decode)
    (hcur : s.cur ≤ s.stream.length) (h : decodeFront s.remaining = .unknownOpcode a) :
    step s = .next (s.raise (.unknownOpcode s.cur a)) := by
  rw [step_of_decode hp, decodeStep, if_neg hcur.not_gt, h]

theorem step_of_record {s : State} {i : Instr} (hp : s.phase = .execute) (hi : s.iq[s.pc]? = some i) :
    step s = exec i s := by
  have hpc : s.pc < s.iq.length := (List.getElem?_eq_some_iff.1 hi).1
  rw [step_of_execute hp, executeStep, if_neg hpc.not_gt, hi]

theorem step_of_endOfList {s : State} (hp : s.phase = .execute) (hpc : s.pc = s.iq.length) :
    step s = .next s.halt := by
  rw [step_of_execute hp, executeStep, if_neg hpc.not_gt, List.getElem?_eq_none hpc.ge]

/-- Settles O23: the three ways a step goes on without raising. -/
theorem stepRunsDecodedInstruction : Obligations.StepRunsDecodedInstruction :=
  ⟨fun _ _ _ hp hcur h => step_of_word hp hcur h, fun _ _ => step_of_record, fun _ => step_of_endOfList⟩

/-- Settles O10: every outcome of `exec` is a next state. -/
theorem everyInstructionAnswersNextState : Obligations.EveryInstructionAnswersNextState :=
  exec_next

/-- Settles O20: the bytes at the cursor decide what the decoder finds at the front, and that decides the step. -/
theorem decodeStepFollowsAlgorithm : Obligations.DecodeStepFollowsAlgorithm := by
  intro s hp
  refine ⟨step_of_endOfStream hp, fun b0 h0 => ?_⟩
  have hcur : s.cur ≤ s.stream.length := (List.getElem?_eq_some_iff.1 h0).1.le
  have hlen := s.length_remaining
  have hrem : s.remaining = b0 :: s.stream.drop (s.cur + 1) := drop_eq_cons_of_getElem? h0
  refine ⟨fun hlt => ?_, fun hle hres => ?_, fun b1 b2 h1 h2 => ?_⟩
  · have hneed : wordLen b0 = ilen (opcodeOf b0) := (ilen_opcodeOf b0).symm
    exact step_of_truncated hp hcur (decodeFront_truncated.2 ⟨b0, _, hrem, hneed, hlen.symm, hlt⟩)
  · rw [← hlen, hrem] at hle
    exact step_of_unknownOpcode hp hcur (hrem ▸ decodeFront_reserved hle hres)
  rw [drop_eq_cons_of_getElem? h1, drop_eq_cons_of_getElem? h2] at hrem
  refine ⟨fun hop w hw => ?_, fun b3 h3 w hw => ?_⟩
  · have hwlen : wordLen b0 = 3 := by simp [wordLen, hop]
    have hnib : bits w 3 0 = 15 := by rw [bits_low_nibble]; omega
    have hd := decodeWord_of_write hnib
    rw [bits_eq, bits_eq] at hd
    exact step_of_word hp hcur (hrem ▸ decodeFront_three hwlen (hw ▸ hd) _)
  · rw [drop_eq_cons_of_getElem? h3] at hrem
    have hnib : bits w 3 0 = b0.toNat % 16 := by rw [bits_low_nibble]; omega
    have hstep (i : Instr) (hwlen : wordLen b0 = 4) (hd : decodeWord w = some i) :
        step s = .next (s.appendWord i 4) :=
      step_of_word hp hcur (hrem ▸ decodeFront_four hwlen (hw ▸ hd) _)
    refine ⟨fun hop => ?_, fun hop => ?_, fun hop => ?_⟩
    · have hd := decodeWord_of_loadConst (hnib.trans hop)
      rw [bits_eq, bits_eq] at hd
      exact hstep _ (by simp [wordLen, hop]) hd
    · have hd := decodeWord_of_read (hnib.trans hop)
      rw [bits_eq, bits_eq] at hd
      exact hstep _ (by simp [wordLen, hop]) hd
    · have hd := decodeWord_of_lt (hnib.trans hop)
      rw [bits_eq, bits_eq, bits_eq] at hd
      exact hstep _ (by simp [wordLen, hop]) hd

/-! ## One step, backwards: all that it can do -/

/-- The five things a step can do (R82, R84, R150). -/
inductive StepOutcome (s : State) : State → Prop
  /-- A word was decoded. -/
  | appended (i : Instr) (n : Nat) (hp : s.phase = .decode) (hcur : s.cur ≤ s.stream.length)
      (hw : decodeFront s.remaining = .word i n) : StepOutcome s (s.appendWord i n)
  /-- The decode phase is over. -/
  | decoded (hp : s.phase = .decode) (hcur : s.cur = s.stream.length) : StepOutcome s s.enterExecute
  /-- An instruction completed. -/
  | completed {t : State} (hp : s.phase = .execute) (hpc : s.pc < s.iq.length) (hc : Completed s t) :
      StepOutcome s t
  /-- The list is exhausted. -/
  | halted (hp : s.phase = .execute) (hpc : s.pc = s.iq.length) : StepOutcome s s.halt
  /-- A condition of the phase was raised. -/
  | raised (f : FaultRecord)
      (hp : s.phase = .decode ∧ f.decodePhase = true ∨ s.phase = .execute ∧ f.decodePhase = false) :
      StepOutcome s (s.raise f)

theorem OutsideAt.not_decodePhase {pc : Nat} {f : FaultRecord} (h : OutsideAt pc f) :
    f.decodePhase = false := by
  obtain ⟨_, _, rfl, -⟩ := h
  rfl

theorem step_outcome {s t : State} (h : step s = .next t) : StepOutcome s t := by
  obtain ⟨hp, hd⟩ | ⟨hp, he⟩ := step_cases h
  · obtain ⟨hcur, ⟨hr, rfl⟩ | ⟨_, _, -, rfl⟩ | ⟨_, -, rfl⟩ | ⟨i, n, hw, rfl⟩⟩ := decodeStep_cases hd
    · exact .decoded hp (s.cur_eq_of_remaining_eq_nil hcur hr)
    · exact .raised _ (.inl ⟨hp, rfl⟩)
    · exact .raised _ (.inl ⟨hp, rfl⟩)
    · exact .appended i n hp hcur hw
  · obtain ⟨hpc, rfl⟩ | ⟨i, hpc, -, hx⟩ := executeStep_cases he
    · exact .halted hp hpc
    · obtain hc | ⟨f, hout, rfl⟩ := exec_completed_or_raised hx
      · exact .completed hp hpc hc
      · exact .raised f (.inr ⟨hp, hout.not_decodePhase⟩)

/-- Settles O25: a word moves `cur`, a completed instruction moves `pc`, and the other outcomes move neither. -/
theorem countersMoveOnlyByCompletionAndDecode : Obligations.CountersMoveOnlyByCompletionAndDecode := by
  intro s t h
  cases step_outcome h with
  | appended i n hp hcur hw =>
    obtain ⟨b0, h0, rfl⟩ := s.wordLen_of_front hw
    exact ⟨.inl ⟨rfl, .inl hp⟩, .inr ⟨hp, hp, ⟨i, (decodeFront_word_wf hw).1, rfl⟩, b0, h0, rfl⟩⟩
  | decoded hp hcur => exact ⟨.inl ⟨rfl, .inl hp⟩, .inl ⟨rfl, rfl⟩⟩
  | completed hp hpc hc =>
    exact ⟨.inr ⟨hc.pc, hp, hc.phase.trans hp, hpc⟩, .inl ⟨hc.cur, hc.iq⟩⟩
  | halted hp hpc => exact ⟨.inl ⟨rfl, .inr (.inl hpc)⟩, .inl ⟨rfl, rfl⟩⟩
  | raised f hp => exact ⟨.inl ⟨rfl, .inr (.inr rfl)⟩, .inl ⟨rfl, rfl⟩⟩

/-- Settles O26: only a completed instruction touches registers or memory, and only a decoded word the list. -/
theorem phasesTouchDisjointState : Obligations.PhasesTouchDisjointState := by
  intro s t h
  cases step_outcome h with
  | appended i n hp => exact ⟨rfl, fun _ => ⟨rfl, rfl, rfl⟩, fun he => by simp [hp] at he⟩
  | completed hp hpc hc => exact ⟨hc.stream, fun hd => by simp [hp] at hd, fun _ => ⟨hc.cur, hc.iq⟩⟩
  | decoded | halted | raised => exact ⟨rfl, fun _ => ⟨rfl, rfl, rfl⟩, fun _ => ⟨rfl, rfl⟩⟩

/-! ## Untouched until the stream is decoded -/

/-- Without a report of the decode phase, a state past it says nothing about its registers and memory. -/
theorem untouchedInv_of_phase_ne {s : State} (hp : s.phase ≠ .decode)
    (hf : ∀ f, s.fault = some f → f.decodePhase = false) : UntouchedInv s := by
  rintro (hd | ⟨f, hs, hd⟩)
  · exact absurd hd hp
  · simp [hf f hs] at hd

theorem UntouchedInv.step {s t : State} (h : UntouchedInv s) (hinv : RunInv s) (hs : step s = .next t) :
    UntouchedInv t := by
  cases step_outcome hs with
  | appended i n hp => exact fun _ => h (.inl hp)
  | decoded hp => exact fun _ => h (.inl hp)
  | completed hp hpc hc =>
    have hf : t.fault = none := hc.fault.trans (hinv.execute hp).2
    exact untouchedInv_of_phase_ne (by simp [hc.phase, hp]) (by simp [hf])
  | halted hp =>
    have hf : s.fault = none := (hinv.execute hp).2
    exact untouchedInv_of_phase_ne nofun (by simp [hf])
  | raised f hp =>
    obtain ⟨hp, -⟩ | ⟨-, hf⟩ := hp
    · exact fun _ => h (.inl hp)
    · exact untouchedInv_of_phase_ne nofun (by simpa using hf)

/-- Settles O57: decode steps touch nothing, and no execute step raises a report of the decode phase. -/
theorem untouchedUntilDecodedKeptByEveryStep : Obligations.UntouchedUntilDecodedKeptByEveryStep :=
  fun _ _ ⟨hinv, h⟩ hs => ⟨hinv.step hs, h.step hinv hs⟩

/-! ## The work left -/

/-- Every step takes a word off the stream for one record, or a record off the list, or leaves a phase. -/
theorem step_lowers_counts {s t : State} (h : step s = .next t) :
    (t.phase.left = s.phase.left ∧ t.stream.length - t.cur + 3 ≤ s.stream.length - s.cur
        ∧ t.iq.length - t.pc ≤ s.iq.length - s.pc + 1) ∨
      (t.phase.left = s.phase.left ∧ t.stream.length - t.cur = s.stream.length - s.cur
        ∧ t.iq.length - t.pc < s.iq.length - s.pc) ∨
      (t.phase.left < s.phase.left ∧ t.stream.length - t.cur = s.stream.length - s.cur
        ∧ t.iq.length - t.pc = s.iq.length - s.pc) := by
  cases step_outcome h with
  | appended i n hp hcur hw =>
    have hn := (decodeFront_word_length hw).1
    have hle := State.appendWord_cur_le hcur hw
    refine .inl ⟨rfl, ?_, ?_⟩
    · simp only [State.appendWord_stream, State.appendWord_cur]
      omega
    · simp only [State.appendWord_iq, State.appendWord_pc, List.length_append, List.length_singleton]
      omega
  | completed hp hpc hc =>
    refine .inr (.inl ⟨by rw [hc.phase], by rw [hc.stream, hc.cur], ?_⟩)
    rw [hc.iq, hc.pc]
    omega
  | decoded hp => exact .inr (.inr ⟨by simp [hp, Phase.left], rfl, rfl⟩)
  | halted hp => exact .inr (.inr ⟨by simp [hp, Phase.left], rfl, rfl⟩)
  | raised f hp =>
    refine .inr (.inr ⟨?_, rfl, rfl⟩)
    obtain ⟨hp, -⟩ | ⟨hp, -⟩ := hp <;> simp [hp, Phase.left]

/-- Settles O58: a decoded word adds one record and takes at least three bytes. -/
theorem everyStepLowersWorkLeft : Obligations.EveryStepLowersWorkLeft := by
  intro s t h
  have hcounts := step_lowers_counts h
  unfold workLeft
  omega

/-- How many steps a run can still make: a word costs one step to decode and one to run (R83, R86). -/
def stepsLeft (s : State) : Nat :=
  2 * ((s.stream.length - s.cur) / 3) + (s.iq.length - s.pc) + s.phase.left

theorem step_lowers_stepsLeft {s t : State} (h : step s = .next t) : stepsLeft t < stepsLeft s := by
  have hcounts := step_lowers_counts h
  unfold stepsLeft
  omega

/-! ## Runs of many steps -/

theorem runFor_succ_of_next {f : State → Result} {s t : State} (h : f s = .next t) (k : Nat) :
    runFor f (k + 1) s = runFor f k t := by
  rw [runFor, h]

theorem runFor_succ_iff {f : State → Result} {k : Nat} {s u : State} :
    runFor f (k + 1) s = .next u ↔ ∃ t, f s = .next t ∧ runFor f k t = .next u := by
  rw [runFor]
  cases f s <;> simp

/-- A run splits at any step. -/
theorem runFor_add {f : State → Result} {j k : Nat} {s u : State} :
    runFor f (j + k) s = .next u ↔ ∃ t, runFor f j s = .next t ∧ runFor f k t = .next u := by
  induction j generalizing s with
  | zero => simp [runFor]
  | succ j ih =>
    rw [Nat.succ_add_eq_add_succ, Nat.add_succ]
    simp only [runFor_succ_iff, ih]
    constructor
    · rintro ⟨v, hv, t, ht, hu⟩
      exact ⟨t, ⟨v, hv, ht⟩, hu⟩
    · rintro ⟨t, ⟨v, hv, ht⟩, hu⟩
      exact ⟨v, hv, t, ht, hu⟩

theorem runFor_one {f : State → Result} {s t : State} : runFor f 1 s = .next t ↔ f s = .next t := by
  rw [runFor_succ_iff]
  simp [runFor]

/-- What holds after no step, and goes from one step count to the next with every step, holds along the run. -/
theorem runFor_induction {f : State → Result} {s : State} {P : Nat → State → Prop} (hstart : P 0 s)
    (hstep : ∀ k u v, P k u → f u = .next v → P (k + 1) v) {k : Nat} {t : State}
    (h : runFor f k s = .next t) : P k t := by
  induction k generalizing t with
  | zero =>
    cases h
    exact hstart
  | succ k ih =>
    obtain ⟨u, hu, ht⟩ := runFor_add.1 h
    exact hstep k u t (ih hu) (runFor_one.1 ht)

/-- Settles O47: the step lemma, along the run. -/
theorem nothingExecutesBeforeStreamIsDecoded : Obligations.NothingExecutesBeforeStreamIsDecoded := by
  intro bytes k t h
  have hinv : RunInv t ∧ UntouchedInv t :=
    runFor_induction (P := fun _ s => RunInv s ∧ UntouchedInv s)
      ⟨start_runInv bytes, fun _ => start_untouched bytes⟩
      (fun _ => untouchedUntilDecodedKeptByEveryStep) h
  exact hinv.2

/-- Where the invariant holds a step is enabled until the run ends, and each lowers the steps left. -/
theorem exists_end_within_stepsLeft {s : State} (h : RunInv s) :
    ∃ k t, k ≤ stepsLeft s ∧ runFor step k s = .next t ∧ (t.phase = .halted ∨ t.phase = .faulted) := by
  induction hn : stepsLeft s using Nat.strong_induction_on generalizing s with
  | _ n ih =>
    by_cases hp : s.phase = .decode ∨ s.phase = .execute
    · obtain ⟨t, ht⟩ := (stepEnabledUntilRunEnds s h).2 hp
      have hlt := step_lowers_stepsLeft ht
      obtain ⟨k, u, hk, hu, hend⟩ := ih _ (hn ▸ hlt) (h.step ht) rfl
      exact ⟨k + 1, u, by omega, (runFor_succ_of_next ht k).trans hu, hend⟩
    · refine ⟨0, s, Nat.zero_le _, rfl, ?_⟩
      cases hs : s.phase with
      | decode => exact absurd (.inl hs) hp
      | execute => exact absurd (.inr hs) hp
      | halted => exact .inl rfl
      | faulted => exact .inr rfl

/-- Settles O48: the bound is the number of steps left at the start. -/
theorem everyRunEnds : Obligations.EveryRunEnds :=
  fun bytes => exists_end_within_stepsLeft (start_runInv bytes)

theorem runFor_of_ended {s t : State} {k : Nat} (hend : s.phase = .halted ∨ s.phase = .faulted)
    (h : runFor step k s = .next t) : k = 0 ∧ t = s := by
  cases k with
  | zero => exact ⟨rfl, by cases h; rfl⟩
  | succ k =>
    obtain ⟨u, hu, -⟩ := runFor_succ_iff.1 h
    exact absurd hu (endedRunHasNoStep s u hend)

/-- An ended state of a run is its last: no longer run reaches another state. -/
theorem RunReaches.last_of_ended {bytes : List Byte} {k k' : Nat} {t t' : State} (h : RunReaches bytes k t)
    (hend : t.phase = .halted ∨ t.phase = .faulted) (h' : RunReaches bytes k' t') (hle : k ≤ k') :
    k' = k ∧ t' = t := by
  obtain ⟨j, rfl⟩ := Nat.exists_eq_add_of_le hle
  obtain ⟨u, hu, ht'⟩ := runFor_add.1 h'
  cases h.symm.trans hu
  obtain ⟨rfl, rfl⟩ := runFor_of_ended hend ht'
  exact ⟨rfl, rfl⟩

/-- Settles O49: the shorter run's end is the longer run's last state. -/
theorem runsOfOneStreamEndAlike : Obligations.RunsOfOneStreamEndAlike := by
  intro bytes k k' t t' h h' hend hend'
  obtain hle | hle := Nat.le_total k k'
  · obtain ⟨hk, ht⟩ := h.last_of_ended hend h' hle
    exact ⟨hk.symm, ht.symm⟩
  · exact h'.last_of_ended hend' h hle

end Sys2Proof.Machine

/-! # Proofs: whole decode phases and the interleaved machine (spec/40_sequencer.md)

Clean decode phases and the check entry, then the steps of a run phase by phase, and last the machine of R91. -/

namespace Sys2Proof

/-! ## Streams that decode cleanly, and placed words -/

/-- The bytes are the words of the list, one after the other. -/
inductive DecodesTo : List Byte → List Instr → Prop
  | nil : DecodesTo [] []
  | cons {bs : List Byte} {i : Instr} {n : Nat} {is : List Instr} (hw : decodeFront bs = .word i n)
      (hrest : DecodesTo (bs.drop n) is) : DecodesTo bs (i :: is)

theorem DecodesTo.eq_nil {bs : List Byte} (h : DecodesTo bs []) : bs = [] := by
  cases h
  rfl

theorem DecodesTo.exists_word {bs : List Byte} {i : Instr} {is : List Instr} (h : DecodesTo bs (i :: is)) :
    ∃ n, decodeFront bs = .word i n ∧ DecodesTo (bs.drop n) is := by
  cases h with
  | cons hw hrest => exact ⟨_, hw, hrest⟩

theorem decodesTo_of_decodeStreamWith {fuel : Nat} {bs : List Byte} {is : List Instr}
    (h : decodeStreamWith fuel bs = some is) : DecodesTo bs is := by
  induction fuel generalizing bs is with
  | zero =>
    obtain ⟨rfl, rfl⟩ : bs = [] ∧ [] = is := by simpa [decodeStreamWith] using h
    exact .nil
  | succ fuel ih =>
    obtain ⟨rfl, rfl⟩ | ⟨i, n, is', hw, his', rfl⟩ := decodeStreamWith_succ h
    · exact .nil
    · exact .cons hw (ih his')

theorem leBytes_take {n m : Nat} (h : n ≤ m) (w : Nat) : (leBytes m w).take n = leBytes n w := by
  induction n generalizing m w with
  | zero => rfl
  | succ n ih =>
    obtain ⟨m, rfl⟩ : ∃ m', m = m' + 1 := ⟨m - 1, by omega⟩
    rw [leBytes, List.take_succ_cons, ih (by omega), leBytes]

/-- Numbered as the table numbers it, an instruction's word begins with its encoding (R70, R72). -/
theorem tableBytes_take_encode (i : Instr) :
    (tableBytes (8 * (encode i).length) (encodeWord i)).take (encode i).length = encode i := by
  have hfit : 2 ^ i.fieldBits ≤ 2 ^ (8 * (encode i).length) := by cases i <;> simp [Instr.fieldBits]
  have hlen : (encode i).length ≤ Config.longLen := by cases i <;> simp
  rw [tableBytes, Nat.mod_eq_of_lt ((encodeWord_lt i).trans_le hfit), leBytes_take hlen, encode_length,
    encode]

theorem firstWordBytes_of_word {bs : List Byte} {i : Instr} {n : Nat} (h : decodeFront bs = .word i n) :
    firstWordBytes bs = bs.take n := by
  obtain ⟨b0, rest, rfl, rfl, -, -⟩ := decodeFront_word.1 h
  rfl

theorem firstWordBytes_tableBytes (i : Instr) :
    firstWordBytes (tableBytes (8 * (encode i).length) (encodeWord i)) = encode i := by
  have htake := tableBytes_take_encode i
  have hw := decodeFront_word_of_take_eq (decodeFront_encode i) (htake.trans (List.take_length).symm)
  rw [firstWordBytes_of_word hw, htake]

theorem decodeFront_encode_of_wf {i : Instr} (h : WellFormed i) :
    decodeFront (encode i) = .word i (encode i).length := by
  rw [decodeFront_encode, Instr.narrow_of_wf h]

theorem decodesTo_encode {i : Instr} (h : WellFormed i) : DecodesTo (encode i) [i] :=
  .cons (decodeFront_encode_of_wf h) (by rw [List.drop_length]; exact .nil)

end Sys2Proof

namespace Sys2Proof.Machine

/-- The state after a decode phase that appends `is` and raises nothing. -/
def State.decodedAs (s : State) (is : List Instr) : State :=
  { s with cur := s.stream.length, iq := s.iq ++ is, phase := .execute }

/-- A clean decode phase: one step for each word, and one that ends the phase. -/
theorem runFor_decodesTo {bs : List Byte} {is : List Instr} (h : DecodesTo bs is) {s : State}
    (hp : s.phase = .decode) (hcur : s.cur ≤ s.stream.length) (hrem : s.remaining = bs) :
    runFor step (is.length + 1) s = .next (s.decodedAs is) := by
  induction h generalizing s with
  | nil =>
    have hend := s.cur_eq_of_remaining_eq_nil hcur hrem
    have hstate : s.enterExecute = s.decodedAs [] := by
      simp [State.enterExecute, State.decodedAs, ← hend]
    rw [List.length_nil, runFor_one, step_of_endOfStream hp hend, hstate]
  | @cons bs i n is hw hrest ih =>
    subst hrem
    have hstate : s.decodedAs (i :: is) = (s.appendWord i n).decodedAs is := by
      simp [State.decodedAs, State.appendWord]
    rw [List.length_cons, runFor_succ_of_next (step_of_word hp hcur hw), hstate]
    exact ih hp (State.appendWord_cur_le hcur hw) (s.remaining_appendWord i n)

theorem runReaches_decoded {bytes : List Byte} {is : List Instr} (h : DecodesTo bytes is) :
    RunReaches bytes (is.length + 1) ((State.start bytes).decodedAs is) :=
  runFor_decodesTo h rfl (Nat.zero_le _) rfl

theorem State.withFetchWord_encode {i : Instr} (h : WellFormed i) (s : State) :
    s.withFetchWord (8 * (encode i).length) (encodeWord i) = { s with
      stream := encode i, cur := (encode i).length, iq := [i], pc := 0, phase := .execute
      fault := none } := by
  rw [State.withFetchWord, firstWordBytes_tableBytes, State.placeWord_word (decodeFront_encode_of_wf h),
    List.take_length]

/-- Settles O38: the placed word is the encoding, which decodes to the instruction and nothing after it. -/
theorem placedWordRunsNext : Obligations.PlacedWordRunsNext := by
  intro i hwf
  refine ⟨fun s => ⟨_, rfl, ?_⟩, ?_⟩
  · rw [s.withFetchWord_encode hwf]
    exact ⟨rfl, rfl, rfl, rfl, rfl, rfl, rfl, rfl, step_of_record rfl rfl⟩
  · rw [State.reset.withFetchWord_encode hwf]
    exact runReaches_decoded (decodesTo_encode hwf)

/-! ## The steps of a run, phase by phase -/

/-- The steps made so far, read off the list and the program counter (R93). -/
structure StepCount (k : Nat) (s : State) : Prop where
  decode : s.phase = .decode → k = s.iq.length
  decoded : s.phase ≠ .decode → s.iq.length < k
  execute : s.phase = .execute → k = s.iq.length + 1 + s.pc
  halted : s.phase = .halted → k = s.iq.length + 1 + s.iq.length + 1

theorem StepCount.step {k : Nat} {s t : State} (h : StepCount k s) (hinv : RunInv s)
    (hs : step s = .next t) : StepCount (k + 1) t := by
  cases step_outcome hs with
  | appended i n hp =>
    refine ⟨fun _ => ?_, fun hn => absurd hp hn, fun he => ?_, fun he => ?_⟩
    · simp [h.decode hp]
    · simp [hp] at he
    · simp [hp] at he
  | decoded hp =>
    have hk := h.decode hp
    have hpc := (hinv.decode hp).1
    refine ⟨nofun, fun _ => ?_, fun _ => ?_, nofun⟩
    · simp [hk]
    · simp [hk, hpc]
  | completed hp hpc hc =>
    have hk := h.execute hp
    refine ⟨fun he => ?_, fun _ => ?_, fun _ => ?_, fun he => ?_⟩
    · simp [hc.phase, hp] at he
    · rw [hc.iq]
      omega
    · rw [hc.iq, hc.pc]
      omega
    · simp [hc.phase, hp] at he
  | halted hp hpc =>
    have hk := h.execute hp
    refine ⟨nofun, fun _ => ?_, nofun, fun _ => ?_⟩
    · change s.iq.length < k + 1
      omega
    · simp [hk, hpc]
  | raised f hp =>
    refine ⟨nofun, fun _ => ?_, nofun, nofun⟩
    change s.iq.length < k + 1
    obtain ⟨hp, -⟩ | ⟨hp, -⟩ := hp
    · have hk := h.decode hp
      omega
    · have hk := h.execute hp
      omega

theorem RunReaches.stepCount {bytes : List Byte} {k : Nat} {t : State} (h : RunReaches bytes k t) :
    StepCount k t := by
  have hstart : StepCount 0 (State.start bytes) := ⟨fun _ => rfl, fun hn => absurd rfl hn, nofun, nofun⟩
  have hboth : RunInv t ∧ StepCount k t :=
    runFor_induction (P := fun k s => RunInv s ∧ StepCount k s) ⟨start_runInv bytes, hstart⟩
      (fun _ _ _ ⟨hinv, hc⟩ hs => ⟨hinv.step hs, hc.step hinv hs⟩) h
  exact hboth.2

/-- What has become of the list of `s` by `t`: it only grows, and after the decode phase it stays. -/
def ListGrownFrom (s t : State) : Prop :=
  s.iq.length ≤ t.iq.length ∧ (s.phase ≠ .decode → t.phase ≠ .decode ∧ t.iq = s.iq)

theorem ListGrownFrom.step {s t u : State} (h : ListGrownFrom s t) (hs : step t = .next u) :
    ListGrownFrom s u := by
  obtain ⟨hle, hstay⟩ := h
  cases step_outcome hs with
  | appended i n hp =>
    have hgrow : t.iq.length ≤ (t.appendWord i n).iq.length := by simp
    exact ⟨hle.trans hgrow, fun hn => absurd hp (hstay hn).1⟩
  | completed hp hpc hc =>
    rw [ListGrownFrom, hc.iq, hc.phase]
    exact ⟨hle, hstay⟩
  | decoded | halted | raised => exact ⟨hle, fun hn => ⟨nofun, (hstay hn).2⟩⟩

theorem runFor_listGrownFrom {k : Nat} {s t : State} (h : runFor step k s = .next t) : ListGrownFrom s t :=
  runFor_induction (P := fun _ => ListGrownFrom s) ⟨le_rfl, fun hn => ⟨hn, rfl⟩⟩
    (fun _ _ _ => ListGrownFrom.step) h

/-- Settles O51: each earlier state of the run is found by splitting it there, and its step count tells its phase. -/
theorem haltedRunStepCount : Obligations.HaltedRunStepCount := by
  intro bytes k t h hp
  have hk := h.stepCount.halted hp
  refine ⟨hk, fun j hj => ?_, fun j hj => ?_⟩
  · obtain ⟨m, rfl⟩ : ∃ m, k = j + m := ⟨k - j, by omega⟩
    obtain ⟨u, hu, ht⟩ := runFor_add.1 h
    have hcount := RunReaches.stepCount hu
    obtain ⟨-, hstay⟩ := runFor_listGrownFrom ht
    by_cases hd : u.phase = .decode
    · exact ⟨u, hu, hd, (hcount.decode hd).symm⟩
    · have hlt := hcount.decoded hd
      rw [← (hstay hd).2] at hlt
      omega
  · obtain ⟨m, rfl⟩ : ∃ m, k = t.iq.length + 1 + j + m := ⟨k - (t.iq.length + 1 + j), by omega⟩
    obtain ⟨u, hu, ht⟩ := runFor_add.1 h
    have hcount := RunReaches.stepCount hu
    obtain ⟨hle, hstay⟩ := runFor_listGrownFrom ht
    have hrunning : ¬ (u.phase = .halted ∨ u.phase = .faulted) := fun hend => by
      have hm := (runFor_of_ended hend ht).1
      omega
    cases hu' : u.phase with
    | decode =>
      have hlen := hcount.decode hu'
      omega
    | execute =>
      have hpc := hcount.execute hu'
      rw [← (hstay (by simp [hu'])).2] at hpc
      exact ⟨u, hu, hu', by omega⟩
    | halted => exact absurd (.inl hu') hrunning
    | faulted => exact absurd (.inr hu') hrunning

/-! ## An instruction does not look at the sequencer's half of the state -/

/-- The registers, memory, program counter and report of `s` with the stream, cursor, list and phase of `o`. -/
def State.reframe (s o : State) : State :=
  { s with stream := o.stream, cur := o.cur, iq := o.iq, phase := o.phase }

theorem writeReg_reframe (s o : State) (c : Nat) (v : Word) :
    writeReg (s.reframe o) c v = (State.reframe · o) <$> writeReg s c v := by
  unfold writeReg
  split <;> rfl

theorem memWrite_reframe (s o : State) (a : Nat) (v : Word) :
    memWrite (s.reframe o) a v = (State.reframe · o) <$> memWrite s a v := by
  unfold memWrite
  split <;> rfl

/-- One computation answers for every frame: reads see the shared half only, and writes keep the other. -/
theorem exec_reframe_eq_finish (i : Instr) (s : State) :
    ∃ r : Raising State, ∀ o, exec i (s.reframe o) = finish (s.reframe o) ((State.reframe · o) <$> r) := by
  cases i with
  | loadConst b c =>
    refine ⟨writeReg s c (zext32 b), fun o => ?_⟩
    rw [← writeReg_reframe]
    rfl
  | read b c =>
    refine ⟨memRead s (directAddr b) >>= writeReg s c, fun o => ?_⟩
    simp only [map_bind, ← writeReg_reframe]
    rfl
  | write b c =>
    refine ⟨indirectAddr s c >>= fun a => readReg s b >>= memWrite s a, fun o => ?_⟩
    simp only [map_bind, ← memWrite_reframe]
    rfl
  | lt b c d =>
    refine ⟨displacedAddr s c d >>= fun a => memRead s a >>= fun op1 => memRead s (directAddr b) >>= fun op2 =>
      memWrite s a (ltFlag op1 op2), fun o => ?_⟩
    simp only [map_bind, ← memWrite_reframe]
    rfl

/-- In every frame the instruction completes alike, or in every frame it raises the same report. -/
theorem exec_reframe (i : Instr) (s : State) :
    (∃ t : State, ∀ o, exec i (s.reframe o) = .next (t.reframe o).advancePc) ∨
      ∃ f, ∀ o, exec i (s.reframe o) = .next ((s.reframe o).raise f) := by
  obtain ⟨r, hr⟩ := exec_reframe_eq_finish i s
  cases r with
  | ok t => exact .inl ⟨t, hr⟩
  | error f => exact .inr ⟨f, hr⟩

theorem completed_of_phase_ne_faulted {i : Instr} {s t : State} (h : exec i s = .next t)
    (hp : t.phase ≠ .faulted) : Completed s t := by
  obtain hc | ⟨f, -, rfl⟩ := exec_completed_or_raised h
  · exact hc
  · exact absurd rfl hp

/-! ## The interleaved machine in step with the core (R91) -/

theorem interleavedStep_of_endOfStream {s : State} (hp : s.phase = .decode)
    (hcur : s.cur ≤ s.stream.length) (h : s.remaining = []) : interleavedStep s = .next s.halt := by
  simp [interleavedStep, hp, hcur.not_gt, h, decodeFront]

theorem interleavedStep_of_word {s : State} {i : Instr} {n : Nat} (hp : s.phase = .decode)
    (hcur : s.cur ≤ s.stream.length) (h : decodeFront s.remaining = .word i n) :
    interleavedStep s = exec i (s.appendWord i n) := by
  simp [interleavedStep, hp, hcur.not_gt, h]

/-- The interleaved machine in `t` and the core in `u` are about to run the same instruction: what is left of the
stream of the one decodes to what is left of the list of the other. -/
structure InStep (t u : State) : Prop where
  same : t = u.reframe t
  decode : t.phase = .decode
  execute : u.phase = .execute
  cur_le : t.cur ≤ t.stream.length
  pc_le : u.pc ≤ u.iq.length
  rest : DecodesTo t.remaining (u.iq.drop u.pc)

/-- The two runs are in step, or have ended alike. -/
def Matched (t u : State) : Prop :=
  InStep t u ∨ SameProgress t u ∧ (t.phase = .halted ∨ t.phase = .faulted)

/-- At the end of the stream and of the list both machines halt. -/
theorem InStep.halt {t u : State} (h : InStep t u) (hrest : u.iq.drop u.pc = []) :
    interleavedStep t = .next t.halt ∧ step u = .next u.halt ∧ SameProgress t.halt u.halt := by
  have hpc : u.pc = u.iq.length := h.pc_le.antisymm (List.drop_eq_nil_iff.1 hrest)
  have hrem : t.remaining = [] := (hrest ▸ h.rest).eq_nil
  refine ⟨interleavedStep_of_endOfStream h.decode h.cur_le hrem, step_of_endOfList h.execute hpc, ?_⟩
  rw [h.same]
  exact ⟨rfl, rfl, rfl, rfl, Iff.rfl, Iff.rfl⟩

/-- At a word and its record both machines run the same instruction from states alike to it. -/
theorem InStep.exec {t u : State} (h : InStep t u) {i : Instr} {is : List Instr}
    (hrest : u.iq.drop u.pc = i :: is) :
    ∃ t' u', interleavedStep t = .next t' ∧ step u = .next u' ∧ Matched t' u' := by
  have hi : u.iq[u.pc]? = some i := by rw [← List.head?_drop, hrest]; rfl
  have hpc : u.pc < u.iq.length := (List.getElem?_eq_some_iff.1 hi).1
  have htail : u.iq.drop (u.pc + 1) = is := by rw [← List.tail_drop, hrest]; rfl
  obtain ⟨n, hw, hdec⟩ := (hrest ▸ h.rest).exists_word
  have ht : interleavedStep t = Machine.exec i (u.reframe (t.appendWord i n)) := by
    rw [interleavedStep_of_word h.decode h.cur_le hw]
    conv_lhs => rw [h.same]
    rfl
  have hu : step u = Machine.exec i (u.reframe u) := step_of_record h.execute hi
  obtain ⟨v, hv⟩ | ⟨f, hf⟩ := exec_reframe i u
  · rw [hv] at ht hu
    have hc : Completed u (v.reframe u).advancePc :=
      completed_of_phase_ne_faulted (hv u) (by simp [State.reframe, h.execute])
    refine ⟨_, _, ht, hu, .inl ⟨rfl, h.decode, h.execute, State.appendWord_cur_le h.cur_le hw, ?_, ?_⟩⟩
    · rw [hc.pc, hc.iq]
      exact hpc
    · rw [hc.pc, hc.iq, htail]
      exact (t.remaining_appendWord i n).symm ▸ hdec
  · rw [hf] at ht hu
    exact ⟨_, _, ht, hu, .inr ⟨⟨rfl, rfl, rfl, rfl, Iff.rfl, Iff.rfl⟩, .inr rfl⟩⟩

theorem InStep.step {t u : State} (h : InStep t u) :
    ∃ t' u', interleavedStep t = .next t' ∧ step u = .next u' ∧ Matched t' u' := by
  cases hrest : u.iq.drop u.pc with
  | nil =>
    obtain ⟨ht, hu, hsame⟩ := h.halt hrest
    exact ⟨_, _, ht, hu, .inr ⟨hsame, .inl rfl⟩⟩
  | cons i is => exact h.exec hrest

theorem interleavedStep_of_ended {s t : State} (h : s.phase = .halted ∨ s.phase = .faulted) :
    interleavedStep s ≠ .next t := by
  obtain h | h := h <;> simp [interleavedStep, h]

theorem Matched.sameProgress {t u : State} (h : Matched t u) : SameProgress t u := by
  obtain h | ⟨h, -⟩ := h
  · rw [h.same]
    exact ⟨rfl, rfl, rfl, rfl, by simp [State.reframe, h.decode, h.execute],
      by simp [State.reframe, h.decode, h.execute]⟩
  · exact h

/-- A step of the interleaved machine is matched by a step of the core. -/
theorem Matched.step_core {t u t' : State} (h : Matched t u) (ht : interleavedStep t = .next t') :
    ∃ u', step u = .next u' ∧ Matched t' u' := by
  obtain h | ⟨-, hend⟩ := h
  · obtain ⟨_, u', ht', hu, hm⟩ := h.step
    cases ht.symm.trans ht'
    exact ⟨u', hu, hm⟩
  · exact absurd ht (interleavedStep_of_ended hend)

/-- A step of the core is matched by a step of the interleaved machine. -/
theorem Matched.step_interleaved {t u u' : State} (h : Matched t u) (hu : step u = .next u') :
    ∃ t', interleavedStep t = .next t' ∧ Matched t' u' := by
  obtain h | ⟨hsame, hend⟩ := h
  · obtain ⟨t', _, ht, hu', hm⟩ := h.step
    cases hu.symm.trans hu'
    exact ⟨t', ht, hm⟩
  · exact absurd hu (endedRunHasNoStep u u' (hend.imp hsame.halted.1 hsame.faulted.1))

/-- What holds of two machines step by step holds of their runs. -/
theorem runFor_simulation {f g : State → Result} {R : State → State → Prop}
    (hstep : ∀ t u t', R t u → f t = .next t' → ∃ u', g u = .next u' ∧ R t' u') {k : Nat} {t u t' : State}
    (h : R t u) (ht : runFor f k t = .next t') : ∃ u', runFor g k u = .next u' ∧ R t' u' := by
  induction k generalizing t u with
  | zero =>
    cases ht
    exact ⟨u, rfl, h⟩
  | succ k ih =>
    obtain ⟨v, hv, ht⟩ := runFor_succ_iff.1 ht
    obtain ⟨w, hw, hR⟩ := hstep t u v h hv
    obtain ⟨u', hu', hR'⟩ := ih hR ht
    exact ⟨u', (runFor_succ_of_next hw k).trans hu', hR'⟩

theorem matched_start {bytes : List Byte} {is : List Instr} (h : DecodesTo bytes is) :
    Matched (State.start bytes) ((State.start bytes).decodedAs is) :=
  .inl ⟨rfl, rfl, rfl, Nat.zero_le _, Nat.zero_le _, h⟩

/-- Settles O52: from the end of the core's decode phase on the two machines go in step, each with the other. -/
theorem interleavedMachineAgreesOnCleanStreams : Obligations.InterleavedMachineAgreesOnCleanStreams := by
  intro bytes is hdec k
  have hwords := decodesTo_of_decodeStreamWith hdec
  have hcore := runReaches_decoded hwords
  have hm := matched_start hwords
  refine ⟨fun t ht => ?_, fun u hu => ?_⟩
  · obtain ⟨u, hu, hm⟩ := runFor_simulation (fun _ _ _ => Matched.step_core) hm ht
    exact ⟨u, runFor_add.2 ⟨_, hcore, hu⟩, hm.sameProgress⟩
  · obtain ⟨v, hv, hu⟩ := runFor_add.1 hu
    cases hcore.symm.trans hv
    obtain ⟨t, ht, hm⟩ := runFor_simulation (R := fun u t => Matched t u)
      (fun _ _ _ => Matched.step_interleaved) hm hu
    exact ⟨t, ht, hm.sameProgress⟩

end Sys2Proof.Machine

/-! # Proofs: the constant load (spec/41_load_const.md)

What an instruction that ends in a register write leaves behind, then LOAD_CONST itself. -/

namespace Sys2Proof.Machine

/-! ## A completed register write -/

theorem State.reg_setReg_same (s : State) (v : Word) {c : Nat} (hc : c < Config.nregs) :
    (s.setReg c v).reg c = v := by
  rw [State.reg_setReg, if_pos ⟨rfl, hc⟩]

theorem completed_setReg_advancePc (s : State) (c : Nat) (v : Word) :
    Completed s (s.setReg c v).advancePc :=
  ⟨rfl, rfl, rfl, rfl, rfl, rfl⟩

/-! ## LOAD_CONST -/

theorem exec_loadConst_of_lt {b : BitVec Config.immBits} {c : Nat} {s : State} (hc : c < Config.nregs) :
    exec (.loadConst b c) s = .next (s.setReg c (zext32 b)).advancePc := by
  obtain ⟨-, he⟩ | ⟨hc', -⟩ := execLoadConst_cases (b := b) (c := c) (s := s) rfl
  · exact he
  · exact absurd hc hc'

/-- Settles O3: inside the bank the one effect is the write of `zext32 b`, and past it R12's check raises. -/
theorem loadConstWritesImmediate : Obligations.LoadConstWritesImmediate := by
  intro b c s
  refine ⟨fun hc => ⟨(s.setReg c (zext32 b)).advancePc, exec_loadConst_of_lt hc, ?_,
    fun _ => s.reg_setReg_of_ne _, fun _ => rfl, completed_setReg_advancePc _ _ _⟩,
    registerIndexPastBankAborts.1 b c s⟩
  rw [State.reg_advancePc, s.reg_setReg_same _ hc, zext32_toNat b (by decide)]

end Sys2Proof.Machine

/-! # Proofs: READ and WRITE (spec/42_read_write.md)

Each instruction's outcome inside and past the memory, then what a run without a store to a cell leaves in it. -/

namespace Sys2Proof.Machine

/-! ## READ -/

theorem exec_read_of_lt {b c : Nat} {s : State} (hb : b < Config.memsize) (hc : c < Config.nregs) :
    exec (.read b c) s = .next (s.setReg c (Memory.cell s.mem b)).advancePc := by
  obtain ⟨-, -, he⟩ | ⟨hb', -⟩ | ⟨-, hc', -⟩ := execRead_cases (b := b) (c := c) (s := s) rfl
  · exact he
  · exact absurd hb hb'
  · exact absurd hc hc'

/-- The address is checked before the register index, so past the memory the latter does not matter. -/
theorem exec_read_of_not_lt {b c : Nat} {s : State} (hb : ¬ b < Config.memsize) :
    exec (.read b c) s = .next (s.raise (.outOfBounds .memory b s.pc)) := by
  obtain ⟨hb', -⟩ | ⟨-, he⟩ | ⟨hb', -⟩ := execRead_cases (b := b) (c := c) (s := s) rfl
  · exact absurd hb' hb
  · exact he
  · exact absurd hb' hb

/-- Settles O4: inside both arrays the one effect is the write of `M[B]`, and past the memory the read raises. -/
theorem readCopiesCell : Obligations.ReadCopiesCell := by
  intro b c s
  refine ⟨fun hb hc => ?_, fun hb => exec_read_of_not_lt hb.not_gt⟩
  exact ⟨(s.setReg c (Memory.cell s.mem b)).advancePc, exec_read_of_lt hb hc, s.reg_setReg_same _ hc,
    fun _ => s.reg_setReg_of_ne _, fun _ => rfl, completed_setReg_advancePc _ _ _⟩

/-! ## WRITE -/

theorem completed_setCell_advancePc (s : State) (a : Nat) (v : Word) :
    Completed s (s.setCell a v).advancePc :=
  ⟨rfl, rfl, rfl, rfl, rfl, rfl⟩

theorem exec_write_of_lt {b c : Nat} {s : State} (hb : b < Config.nregs) (hc : c < Config.nregs)
    (ha : (s.reg c).toNat < Config.memsize) :
    exec (.write b c) s = .next (s.setCell (s.reg c).toNat (s.reg b)).advancePc := by
  obtain ⟨-, -, -, he⟩ | ⟨hc', -⟩ | ⟨-, hb', -⟩ | ⟨-, -, ha', -⟩ :=
    execWrite_cases (b := b) (c := c) (s := s) rfl
  · exact he
  · exact absurd hc hc'
  · exact absurd hb hb'
  · exact absurd ha ha'

theorem exec_write_of_not_lt {b c : Nat} {s : State} (hb : b < Config.nregs) (hc : c < Config.nregs)
    (ha : ¬ (s.reg c).toNat < Config.memsize) :
    exec (.write b c) s = .next (s.raise (.outOfBounds .memory (s.reg c).toNat s.pc)) := by
  obtain ⟨-, -, ha', -⟩ | ⟨hc', -⟩ | ⟨-, hb', -⟩ | ⟨-, -, -, he⟩ :=
    execWrite_cases (b := b) (c := c) (s := s) rfl
  · exact absurd ha' ha
  · exact absurd hc hc'
  · exact absurd hb hb'
  · exact he

/-- Settles O5: with both indices in the bank, the value of `x[C]` decides between the store and the raise. -/
theorem writeStoresRegister : Obligations.WriteStoresRegister := by
  intro b c s hb hc
  refine ⟨fun ha => ?_, fun ha => exec_write_of_not_lt hb hc ha.not_gt⟩
  refine ⟨(s.setCell (s.reg c).toNat (s.reg b)).advancePc, exec_write_of_lt hb hc ha, ?_, fun a hne => ?_,
    fun _ => rfl, completed_setCell_advancePc _ _ _⟩
  · rw [State.advancePc_mem, State.setCell_mem, Memory.cell_set, if_pos rfl]
  · rw [State.advancePc_mem, State.setCell_mem, Memory.cell_set, if_neg hne]

/-! ## A cell that nothing stores to (R118) -/

theorem step_cell_of_not_storesTo {s t : State} {a : Nat} (h : step s = .next t) (hno : ¬ StoresTo s a) :
    Memory.cell t.mem a = Memory.cell s.mem a := by
  obtain ⟨hp, -⟩ | ⟨hp, he⟩ := step_cases h
  · obtain ⟨-, hdecode, -⟩ := phasesTouchDisjointState s t h
    obtain ⟨-, hmem, -⟩ := hdecode hp
    rw [hmem]
  · obtain ⟨-, rfl⟩ | ⟨i, -, hi, hx⟩ := executeStep_cases he
    · rfl
    · exact memoryWrittenAtStoreAddressOnly i s t hx a fun hstore => hno ⟨hp, i, hi, hstore⟩

theorem runFor_cell_of_not_storesTo {k : Nat} {s t : State} {a : Nat} (h : runFor step k s = .next t)
    (hno : ∀ j v, j < k → runFor step j s = .next v → ¬ StoresTo v a) :
    Memory.cell t.mem a = Memory.cell s.mem a := by
  induction k generalizing t with
  | zero =>
    cases h
    rfl
  | succ k ih =>
    obtain ⟨u, hu, hut⟩ := runFor_add.1 h
    calc Memory.cell t.mem a
      _ = Memory.cell u.mem a := step_cell_of_not_storesTo (runFor_one.1 hut) (hno k u k.lt_succ_self hu)
      _ = Memory.cell s.mem a := ih hu fun j v hj => hno j v (hj.trans k.lt_succ_self)

/-- Settles O28: WRITE puts the value in the cell, the steps between keep it there, and READ copies it out. -/
theorem readAfterWriteGivesValueWritten : Obligations.ReadAfterWriteGivesValueWritten := by
  rintro s t u b c c' a k hps his hb hc rfl ha hst hrun hno hpu hiu hc'
  obtain ⟨t', ht', hwritten, -⟩ := (writeStoresRegister b c s hb hc).1 ha
  obtain rfl : t' = t := by
    rw [step_of_record hps his, ht'] at hst
    exact Host.Outcome.next.inj hst
  obtain ⟨w, hw, hread, -⟩ := (readCopiesCell _ c' u).1 ha hc'
  refine ⟨w, (step_of_record hpu hiu).trans hw, ?_⟩
  calc w.reg c'
    _ = Memory.cell u.mem (s.reg c).toNat := hread
    _ = Memory.cell t'.mem (s.reg c).toNat := runFor_cell_of_not_storesTo hrun hno
    _ = s.reg b := hwritten

end Sys2Proof.Machine

/-! # Proofs: LT (spec/43_lt.md)

The ALU's sum and comparison as numbers, then LT's outcome by its computed address, and the aliased operands of LT
and WRITE. -/

namespace Sys2Proof.Machine

/-! ## The ALU (R135, R136) -/

theorem add32_zext32_toNat (a : Word) (d : BitVec Config.dispBits) :
    (add32 a (zext32 d)).toNat = (a.toNat + d.toNat) % 2 ^ 32 := by
  rw [add32_toNat, zext32_toNat d (by decide)]

/-- The sum comes out below its base exactly when the base is within the displacement of `2^32`. -/
theorem add32_zext32_lt_iff (a : Word) (d : BitVec Config.dispBits) :
    (add32 a (zext32 d)).toNat < a.toNat ↔ 2 ^ 32 - d.toNat ≤ a.toNat := by
  have ha : a.toNat < 4294967296 := a.isLt
  have hd : d.toNat < 256 := d.isLt
  rw [add32_zext32_toNat]
  omega

theorem ltFlag_toNat (a b : Word) : (ltFlag a b).toNat = if a.toNat < b.toNat then 1 else 0 := by
  obtain ⟨hlt, hflag⟩ | ⟨hlt, hflag⟩ := ltFlag_cases a b
  · rw [hflag, if_pos hlt]
    rfl
  · rw [hflag, if_neg hlt]
    rfl

theorem ltFlag_self (a : Word) : ltFlag a a = 0 :=
  if_neg (Nat.lt_irrefl _)

/-- Settles O17, operation by operation. -/
theorem aluAddsAndComparesUnsigned : Obligations.AluAddsAndComparesUnsigned :=
  ⟨fun a d => ⟨add32_zext32_toNat a d, add32_zext32_lt_iff a d⟩,
    fun a b => ⟨ltFlag_toNat a b, ltFlag_self a⟩⟩

/-! ## LT (R130) -/

theorem cell_setCell_advancePc (s : State) (a : Nat) (v : Word) (a' : Nat) :
    Memory.cell (s.setCell a v).advancePc.mem a' = if a' = a then v else Memory.cell s.mem a' :=
  Memory.cell_set s.mem a v a'

theorem exec_lt_of_lt {b c : Nat} {d : BitVec Config.dispBits} {s : State} (hb : b < Config.memsize)
    (hc : c < Config.nregs) (ha : ltAddr s c d < Config.memsize) :
    exec (.lt b c d) s = .next (s.setCell (ltAddr s c d)
      (ltFlag (Memory.cell s.mem (ltAddr s c d)) (Memory.cell s.mem b))).advancePc := by
  obtain ⟨-, -, -, he⟩ | ⟨hc', -⟩ | ⟨-, ha', -⟩ | ⟨-, -, hb', -⟩ :=
    execLt_cases (b := b) (c := c) (d := d) (s := s) rfl rfl
  · exact he
  · exact absurd hc hc'
  · exact absurd ha ha'
  · exact absurd hb hb'

/-- The computed address is checked before the direct one, so past the memory the latter does not matter. -/
theorem exec_lt_of_not_lt {b c : Nat} {d : BitVec Config.dispBits} {s : State} (hc : c < Config.nregs)
    (ha : ¬ ltAddr s c d < Config.memsize) :
    exec (.lt b c d) s = .next (s.raise (.outOfBounds .memory (ltAddr s c d) s.pc)) := by
  obtain ⟨-, ha', -⟩ | ⟨hc', -⟩ | ⟨-, -, he⟩ | ⟨-, ha', -⟩ :=
    execLt_cases (b := b) (c := c) (d := d) (s := s) rfl rfl
  · exact absurd ha' ha
  · exact absurd hc hc'
  · exact he
  · exact absurd ha' ha

/-- Settles O6: inside the memory the one effect is the comparison's number at the computed address, and past it
the read of that address raises. -/
theorem ltWritesComparison : Obligations.LtWritesComparison := by
  intro b c d s hc
  refine ⟨fun hb ha => ⟨_, exec_lt_of_lt hb hc ha, ?_, fun a hne => ?_, fun _ => rfl,
    completed_setCell_advancePc _ _ _⟩, fun ha => exec_lt_of_not_lt hc ha.not_gt⟩
  · rw [cell_setCell_advancePc, if_pos rfl, ltFlag_toNat]
  · rw [cell_setCell_advancePc, if_neg hne]

/-! ## Aliased operands (R131, R117) -/

/-- Settles O7: no number is below itself, so LT on one cell writes 0; WRITE on one register is R115 with B = C. -/
theorem aliasedOperandsActAsOne : Obligations.AliasedOperandsActAsOne := by
  refine ⟨fun b c d s hb hc ha => ?_, fun r s hr => ?_⟩
  · refine ⟨_, exec_lt_of_lt hb hc (ha.trans_lt hb), ?_⟩
    rw [ha, cell_setCell_advancePc, if_pos rfl, ltFlag_self]
  · obtain ⟨hstore, habort⟩ := writeStoresRegister r r s hr hr
    refine ⟨fun ha => ?_, habort⟩
    obtain ⟨t, hexec, hcell, -⟩ := hstore ha
    exact ⟨t, hexec, hcell⟩

end Sys2Proof.Machine

/-! # Proofs: the conditions of the core (spec/60_exceptions.md)

First the bytes at the cursor and the two conditions of the decode phase, then OutOfBounds, instruction by
instruction, and last what a raise leaves, after one step and in a run. -/

namespace Sys2Proof

/-! ## A byte at the front -/

theorem reservedNibble_iff (b0 : Byte) : Machine.ReservedNibble b0 ↔ opcodeOf b0 ∉ [1, 4, 9, 15] := by
  rw [opcodeOf, bits_low_nibble]
  simp [Machine.ReservedNibble]

theorem wordLen_cases (b0 : Byte) : Machine.wordLen b0 = 3 ∨ Machine.wordLen b0 = 4 :=
  ilen_opcodeOf b0 ▸ ilen_cases _

theorem wordLen_of_reserved {b0 : Byte} (h : Machine.ReservedNibble b0) : Machine.wordLen b0 = 3 := by
  obtain ⟨h1, h4, h9, -⟩ := h
  simp [Machine.wordLen, h1, h4, h9]

/-- The three things the decoder can find at a byte, in the order of R82: the word is cut off, or its nibble is
reserved, or it decodes. -/
theorem decodeFront_cons_cases (b0 : Byte) (rest : List Byte) :
    ((b0 :: rest).length < Machine.wordLen b0
        ∧ decodeFront (b0 :: rest) = .truncated (Machine.wordLen b0) (b0 :: rest).length) ∨
      (Machine.wordLen b0 ≤ (b0 :: rest).length ∧ Machine.ReservedNibble b0
        ∧ decodeFront (b0 :: rest) = .unknownOpcode (b0.toNat % 16)) ∨
      (Machine.wordLen b0 ≤ (b0 :: rest).length ∧ ¬ Machine.ReservedNibble b0
        ∧ ∃ i, decodeFront (b0 :: rest) = .word i (Machine.wordLen b0)) := by
  have hlen := ilen_opcodeOf b0
  by_cases hlt : (b0 :: rest).length < Machine.wordLen b0
  · exact .inl ⟨hlt, decodeFront_truncated.2 ⟨b0, rest, rfl, hlen.symm, rfl, hlt⟩⟩
  have hle := Nat.le_of_not_lt hlt
  by_cases hres : Machine.ReservedNibble b0
  · exact .inr (.inl ⟨hle, hres, decodeFront_reserved hle hres⟩)
  · have hword : decodeWord (le ((b0 :: rest).take (ilen (opcodeOf b0)))) ≠ none := by
      rwa [Ne, decodeWord_eq_none_iff, bits_le_take_ilen, ← reservedNibble_iff]
    obtain ⟨i, hi⟩ := Option.ne_none_iff_exists'.1 hword
    exact .inr (.inr ⟨hle, hres, i, decodeFront_word.2 ⟨b0, rest, rfl, hlen.symm, hle, hlen ▸ hi⟩⟩)

end Sys2Proof

namespace Sys2Proof.Machine

/-! ## The decode phase -/

/-- The three outcomes of a decode step that meets the byte `b0` (R82, R141, R142). -/
theorem step_at_byte {s t : State} {b0 : Byte} (hp : s.phase = .decode) (h0 : s.stream[s.cur]? = some b0)
    (hs : step s = .next t) :
    (s.stream.length - s.cur < wordLen b0
        ∧ t = s.raise (.truncatedStream s.cur (wordLen b0) (s.stream.length - s.cur))) ∨
      (wordLen b0 ≤ s.stream.length - s.cur ∧ ReservedNibble b0
        ∧ t = s.raise (.unknownOpcode s.cur (b0.toNat % 16))) ∨
      (wordLen b0 ≤ s.stream.length - s.cur ∧ ¬ ReservedNibble b0
        ∧ ∃ i, t = s.appendWord i (wordLen b0)) := by
  have hcur : s.cur ≤ s.stream.length := (List.getElem?_eq_some_iff.1 h0).1.le
  have hrem : s.remaining = b0 :: s.stream.drop (s.cur + 1) := drop_eq_cons_of_getElem? h0
  have hcases := decodeFront_cons_cases b0 (s.stream.drop (s.cur + 1))
  rw [← hrem, s.length_remaining] at hcases
  obtain ⟨hlt, hf⟩ | ⟨hle, hres, hf⟩ | ⟨hle, hres, i, hf⟩ := hcases
  · rw [step_of_truncated hp hcur hf] at hs
    exact .inl ⟨hlt, (Host.Outcome.next.inj hs).symm⟩
  · rw [step_of_unknownOpcode hp hcur hf] at hs
    exact .inr (.inl ⟨hle, hres, (Host.Outcome.next.inj hs).symm⟩)
  · rw [step_of_word hp hcur hf] at hs
    exact .inr (.inr ⟨hle, hres, i, (Host.Outcome.next.inj hs).symm⟩)

/-- Settles O21: of the three outcomes at a byte only the cut-off word reports TruncatedStream. -/
theorem truncatedStreamExactlyWhen : Obligations.TruncatedStreamExactlyWhen := by
  intro s t b0 hp hf h0 hs
  have hleft : s.cur < s.stream.length := (List.getElem?_eq_some_iff.1 h0).1
  have hneed := wordLen_cases b0
  obtain ⟨hlt, rfl⟩ | ⟨hle, -, rfl⟩ | ⟨hle, -, i, rfl⟩ := step_at_byte hp h0 hs
  · refine ⟨iff_of_true ⟨_, _, _, rfl⟩ hlt, fun at_ need have_ he => ?_⟩
    cases he
    exact ⟨rfl, rfl, rfl, by omega, hneed⟩
  · exact ⟨iff_of_false nofun hle.not_gt, nofun⟩
  · exact ⟨iff_of_false (by simp [hf]) hle.not_gt, by simp [hf]⟩

/-- Settles O22: of the three outcomes at a byte only the reserved nibble reports UnknownOpcode, and a reserved
word is three bytes long. -/
theorem unknownOpcodeExactlyWhen : Obligations.UnknownOpcodeExactlyWhen := by
  intro s t b0 hp hf h0 hs
  obtain ⟨hlt, rfl⟩ | ⟨hle, hres, rfl⟩ | ⟨-, hres, i, rfl⟩ := step_at_byte hp h0 hs
  · refine ⟨iff_of_false nofun fun ⟨hres, hthree⟩ => ?_, nofun⟩
    rw [wordLen_of_reserved hres] at hlt
    exact hthree.not_gt hlt
  · rw [wordLen_of_reserved hres] at hle
    refine ⟨iff_of_true ⟨_, _, rfl⟩ ⟨hres, hle⟩, fun at_ opcode he => ?_⟩
    cases he
    exact ⟨rfl, rfl, rfl, rfl⟩
  · exact ⟨iff_of_false (by simp [hf]) fun h => hres h.1, by simp [hf]⟩

/-! ## OutOfBounds (R143) -/

/-- A result that completes below address 4096 and aborts from it on raises exactly there, with that index. -/
theorem raises_memory_iff {s t : State} {r : Result} {a : Nat} (hp : s.phase = .execute)
    (hcompletes : a < 4096 → ∃ u, r = .next u ∧ Completed s u)
    (haborts : 4096 ≤ a → r = Aborts s (.outOfBounds .memory a s.pc)) (h : r = .next t) :
    (t.phase = .faulted ↔ 4096 ≤ a) ∧ (4096 ≤ a → t.fault = some (.outOfBounds .memory a s.pc)) := by
  obtain ha | ha := Nat.lt_or_ge a 4096
  · obtain ⟨u, rfl, hc⟩ := hcompletes ha
    cases h
    exact ⟨iff_of_false (by simp [hc.phase, hp]) ha.not_ge, fun hge => absurd ha hge.not_gt⟩
  · cases (haborts ha).symm.trans h
    exact ⟨iff_of_true rfl ha, fun _ => rfl⟩

/-- Settles O16: with the register indices of a well-formed record inside the bank, only the memory address is
left to decide between completion and abort (R100, R110, R115, R130). -/
theorem decodedInstructionRaisesExactlyWhen : Obligations.DecodedInstructionRaisesExactlyWhen := by
  intro i s t hwf hp h
  cases i with
  | loadConst b c =>
    have hc : c < 128 := by simpa [WellFormed, Instr.wf] using hwf
    cases (exec_loadConst_of_lt hc).symm.trans h
    exact hp
  | read b c =>
    obtain ⟨-, hc⟩ : b < 131072 ∧ c < 128 := by simpa [WellFormed, Instr.wf] using hwf
    refine raises_memory_iff hp (fun hb => ?_) (readCopiesCell b c s).2 h
    exact ⟨_, exec_read_of_lt hb hc, completed_setReg_advancePc _ _ _⟩
  | write b c =>
    obtain ⟨hb, hc⟩ : b < 128 ∧ c < 128 := by simpa [WellFormed, Instr.wf] using hwf
    refine raises_memory_iff hp (fun ha => ?_) (writeStoresRegister b c s hb hc).2 h
    exact ⟨_, exec_write_of_lt hb hc ha, completed_setCell_advancePc _ _ _⟩
  | lt b c d =>
    obtain ⟨hb, hc⟩ : b < 128 ∧ c < 128 := by simpa [WellFormed, Instr.wf] using hwf
    refine raises_memory_iff hp (fun ha => ?_) (ltWritesComparison b c d s hc).2 h
    exact ⟨_, exec_lt_of_lt (hb.trans (by decide)) hc ha, completed_setCell_advancePc _ _ _⟩

/-! ## What a raise leaves (R150, R151) -/

/-- Only a raise ends in phase Faulted, and the phase it was made in tells the report's kind (R140). -/
theorem raised_of_phase_faulted {s t : State} (hs : step s = .next t) (ht : t.phase = .faulted) :
    ∃ f, t = s.raise f
      ∧ (s.phase = .decode ∧ f.decodePhase = true ∨ s.phase = .execute ∧ f.decodePhase = false) := by
  cases step_outcome hs with
  | appended i n hp => simp [hp] at ht
  | decoded | halted => cases ht
  | completed hp hpc hc => simp [hc.phase, hp] at ht
  | raised f hp => exact ⟨f, rfl, hp⟩

/-- Settles O13: the step is a raise, and the phase it leaves is terminal. -/
theorem raiseWritesOnlyReportAndPhase : Obligations.RaiseWritesOnlyReportAndPhase := by
  intro s t hs ht
  obtain ⟨f, he, -⟩ := raised_of_phase_faulted hs ht
  exact ⟨⟨f, he⟩, fun u => endedRunHasNoStep t u (.inr ht)⟩

theorem RunReaches.runInv {bytes : List Byte} {k : Nat} {t : State} (h : RunReaches bytes k t) : RunInv t :=
  runFor_induction (P := fun _ => RunInv) (start_runInv bytes) (fun _ _ _ => RunInv.step) h

/-- A run that holds a report has raised it in its last step. -/
theorem RunReaches.exists_raise {bytes : List Byte} {k : Nat} {t : State} {f : FaultRecord}
    (h : RunReaches bytes k t) (hf : t.fault = some f) :
    ∃ j u, k = j + 1 ∧ RunReaches bytes j u ∧ t = u.raise f
      ∧ (u.phase = .decode ∧ f.decodePhase = true ∨ u.phase = .execute ∧ f.decodePhase = false) := by
  cases k with
  | zero =>
    cases h
    cases hf
  | succ j =>
    obtain ⟨u, hu, ht⟩ := runFor_add.1 h
    have hphase : t.phase = .faulted := h.runInv.fault_iff.1 ⟨f, hf⟩
    obtain ⟨g, rfl, hp⟩ := raised_of_phase_faulted (runFor_one.1 ht) hphase
    cases hf
    exact ⟨j, u, rfl, hu, rfl, hp⟩

/-- Settles O15: the step before the report was an execute step, so its state has the step count of its `pc`, and
the raise kept that state's registers, memory and counters. -/
theorem abortIsPrecise : Obligations.AbortIsPrecise := by
  intro bytes k t kind index at_ h hf
  obtain ⟨j, u, rfl, hu, rfl, ⟨-, hd⟩ | ⟨hp, -⟩⟩ := h.exists_raise hf
  · cases hd
  obtain ⟨f, hf', hfits⟩ := h.runInv.faulted rfl
  obtain rfl : f = .outOfBounds kind index at_ := Option.some.inj (hf'.symm.trans hf)
  obtain ⟨hat, -⟩ := hfits
  obtain rfl : j = u.iq.length + 1 + u.pc := hu.stepCount.execute hp
  exact ⟨hat, rfl, u, hu, hp, rfl, rfl, rfl⟩

/-! ## The numeric cause codes (R144) -/

/-- Settles O56, code by code. -/
theorem causeCodesAreNumbered : Obligations.CauseCodesAreNumbered :=
  ⟨rfl, fun _ _ => rfl, fun _ _ _ => rfl, fun _ _ _ => rfl, rfl, rfl⟩

end Sys2Proof.Machine

/-! # Proofs: how a run ends, and what the host may then do (spec/70_reset_and_hazards.md)

The stream and the decoded prefix along a run, then the host's moves by whether the run has ended. -/

namespace Sys2Proof.Machine

/-! ## The end of a run (R174) -/

theorem step_stream {s t : State} (h : step s = .next t) : t.stream = s.stream :=
  (phasesTouchDisjointState s t h).1

theorem RunReaches.stream {bytes : List Byte} {k : Nat} {t : State} (h : RunReaches bytes k t) :
    t.stream = bytes :=
  runFor_induction (P := fun _ s => s.stream = bytes) rfl (fun _ _ _ hu hs => (step_stream hs).trans hu) h

theorem RunReaches.prefixInv {bytes : List Byte} {k : Nat} {t : State} (h : RunReaches bytes k t) :
    PrefixInv t :=
  runFor_induction (P := fun _ => PrefixInv) (start_prefixInv bytes)
    (fun _ => listIsDecodeOfConsumedPrefix) h

theorem PrefixInv.decodeStream_of_cur_eq {s : State} (h : PrefixInv s) (hcur : s.cur = s.stream.length) :
    decodeStream s.stream = some s.iq := by
  obtain ⟨-, hdec⟩ := h
  rwa [hcur, List.take_length] at hdec

/-- Settles O50: a Halted run has its cursor at the end of the supplied stream, so the prefix its list decodes is
the whole stream; a Faulted run's report is the run invariant's. -/
theorem endedRunSaysHowItEnded : Obligations.EndedRunSaysHowItEnded := by
  intro bytes k t h
  refine ⟨fun hp => ?_, h.runInv.faulted⟩
  obtain ⟨hcur, hpc, hf⟩ := h.runInv.halted hp
  have hdec := h.prefixInv.decodeStream_of_cur_eq hcur
  rw [h.stream] at hcur hdec
  exact ⟨hdec, hpc, hcur, hf⟩

/-! ## The host's moves (R173) -/

theorem State.not_ended_iff (s : State) : ¬ s.ended = true ↔ s.phase = .decode ∨ s.phase = .execute := by
  rw [State.ended_iff]
  cases s.phase <;> simp

theorem inspectReg_of_ended {s : State} {i : Nat} (hend : s.ended = true) (hi : i < Config.nregs) :
    inspectReg s i = some (s.reg i) :=
  if_pos (Bool.and_eq_true_iff.2 ⟨hend, decide_eq_true hi⟩)

theorem inspectReg_of_not_ended {s : State} (hrun : ¬ s.ended = true) (i : Nat) : inspectReg s i = none :=
  if_neg fun h => hrun (Bool.and_eq_true_iff.1 h).1

/-- Settles O2: an ended run lets the next one start, from the start state of its own stream. -/
theorem nextRunStartsFresh : Obligations.NextRunStartsFresh :=
  fun s _ hp => if_pos (s.ended_iff.2 hp)

/-- Settles O54: each move asks whether the run has ended, which no running phase is. -/
theorem hostHasNoMoveDuringRun : Obligations.HostHasNoMoveDuringRun := by
  intro s bytes start stop i hp
  have hrun := s.not_ended_iff.2 hp
  exact ⟨if_neg hrun, if_neg hrun, inspectReg_of_not_ended hrun i, if_neg hrun⟩

/-- Settles O55: the run has ended and the register is inside the bank. -/
theorem hostReadsStatusAndRegistersAfterRun : Obligations.HostReadsStatusAndRegistersAfterRun := by
  intro s i hp hi
  have hend := s.ended_iff.2 hp
  exact ⟨if_pos hend, inspectReg_of_ended hend hi⟩

end Sys2Proof.Machine
